-- ==== Sys2Proof/Word.lean ====
section
/-! DEFINITION. The machine's words: the 32-bit register value, the byte, and a value for each of the indices 0, 1, 2. -/

namespace Sys2Proof

/-- `u32` of R9: a 32-bit unsigned value. -/
abbrev Word := BitVec 32

/-- `Byte` of R9: an 8-bit unsigned value. -/
abbrev Byte := BitVec 8

/-- One value for each of the indices 0, 1 and 2: R12's `Vector _ 3`, and R6's parameters that depend on an LED. -/
structure Triple (α : Type) where
  i0 : α
  i1 : α
  i2 : α
deriving DecidableEq, Repr

/-- The value at an index. -/
def Triple.get {α : Type} (t : Triple α) (i : Fin 3) : α :=
  match i with
  | 0 => t.i0
  | 1 => t.i1
  | 2 => t.i2

/-- The triple of a function of the index. -/
def Triple.ofFn {α : Type} (f : Fin 3 → α) : Triple α := ⟨f 0, f 1, f 2⟩

/-- The three values in index order. -/
def Triple.toList {α : Type} (t : Triple α) : List α := [t.i0, t.i1, t.i2]

end Sys2Proof
end

