-- ==== Sys2Proof/Syntax.lean ====
section
/-! DEFINITION. The configuration type (R12), the operation descriptor (R71) and the instructions: one constructor per row of the opcode table. -/

namespace Sys2Proof

/-- R12: the activity trigger of an LED. -/
inductive Activity where
  | none
  | allSpeeds
deriving DecidableEq, Repr

/-- R12, R30: a blink interval; `linkSpeedDependent` is the source's sentinel. -/
inductive Interval where
  | fixed0
  | fixed1
  | fixed2
  | linkSpeedDependent
deriving DecidableEq, Repr

/-- R12: one LED's setting; the link triggers are four membership bits. -/
structure LedSetting where
  link10    : Bool
  link100   : Bool
  link1000  : Bool
  link2500  : Bool
  activity  : Activity
  activeLow : Bool
deriving DecidableEq, Repr

/-- R12: a decoded or requested configuration. The duty cycle is in units of 0.1 %, any natural number (D14). -/
structure LedConfiguration where
  leds          : Triple LedSetting
  blinkInterval : Interval
  dutyPermille  : Nat
deriving DecidableEq, Repr

/-- R13: the setting of an LED that is absent or unused. -/
def LedSetting.off : LedSetting := ⟨false, false, false, false, .none, false⟩

/-- The operand types of R71 and the word `res` of R90, as they stand in a descriptor's operand tuple. -/
inductive OperandVal where
  | u32    (v : Word)
  | bytes  (bs : List Byte)
  | width  (n : Nat)
  | offset (n : Nat)
  | config (c : LedConfiguration)
  | res
deriving DecidableEq, Repr

/-- R71: an operation descriptor, a 4-bit selector followed by a tuple of typed operands. -/
structure Descriptor where
  op       : BitVec 4
  operands : List OperandVal
deriving DecidableEq, Repr

/-- R23: an operand is a literal, which stands for itself, or `res`, which stands for the current result. -/
inductive Arg (α : Type) where
  | lit (a : α)
  | res
deriving DecidableEq, Repr

/-- The operations of R71, one constructor per row of the opcode table. -/
inductive Instr where
  /-- `PACK v, w` (R100). -/
  | pack (v : Arg Word) (w : Arg Nat)
  /-- `UNPACK bs, w` (R110). -/
  | unpack (bs : Arg (List Byte)) (w : Arg Nat)
  /-- `LED_DECODE raw` (R130). -/
  | ledDecode (raw : Arg Word)
  /-- `LED_ENCODE c` (R140). -/
  | ledEncode (c : Arg LedConfiguration)
  /-- `DS_READ` (R180). -/
  | dsRead
  /-- `DS_WRITE c` (R185). -/
  | dsWrite (c : Arg LedConfiguration)
  /-- `DS_READ_RAW off, w` (R190). -/
  | dsReadRaw (off : Arg Nat) (w : Arg Nat)
  /-- `DS_WRITE_RAW off, w, v` (R195). -/
  | dsWriteRaw (off : Arg Nat) (w : Arg Nat) (v : Arg Word)
  /-- A descriptor with a reserved selector, 0x8 to 0xF, and any operands (R80). -/
  | reserved (op : BitVec 4) (operands : List OperandVal)
deriving DecidableEq, Repr

end Sys2Proof
end

