-- ==== Sys2Proof/WellFormed.lean ====
section
/-! DEFINITION. Which instructions are instructions of the machine. -/

namespace Sys2Proof

/-- R80: only the selectors with `op[3] = 1` are reserved. Every other constraint on operands is checked when the
operation runs (R77 widths, D19 offsets, D5 values), so that its error can be raised. -/
def Instr.wellFormed : Instr → Bool
  | .pack _ _ => true
  | .unpack _ _ => true
  | .ledDecode _ => true
  | .ledEncode _ => true
  | .dsRead => true
  | .dsWrite _ => true
  | .dsReadRaw _ _ => true
  | .dsWriteRaw _ _ _ => true
  | .reserved op _ => op.getLsbD 3

end Sys2Proof
end

