-- ==== Sys2Proof/Decode.lean ====
section
/-! DEFINITION. The descriptor decoder (R71), total on every descriptor, and the encoder beside it. -/

namespace Sys2Proof

/-- Why an operand tuple is no tuple of its selector's row in R71. -/
inductive DecodeError where
  /-- The tuple has another number of operands than the row. -/
  | operandCount
  /-- A literal operand has another type than the row's. -/
  | operandShape
deriving DecidableEq, Repr

/-- An operand of type u32. -/
def asU32 : OperandVal → Option (Arg Word)
  | .u32 v => some (.lit v)
  | .res => some .res
  | .bytes _ | .width _ | .offset _ | .config _ => none

/-- An operand of type Bytes. -/
def asBytes : OperandVal → Option (Arg (List Byte))
  | .bytes bs => some (.lit bs)
  | .res => some .res
  | .u32 _ | .width _ | .offset _ | .config _ => none

/-- An operand of type Width. -/
def asWidth : OperandVal → Option (Arg Nat)
  | .width n => some (.lit n)
  | .res => some .res
  | .u32 _ | .bytes _ | .offset _ | .config _ => none

/-- An operand of type Offset. -/
def asOffset : OperandVal → Option (Arg Nat)
  | .offset n => some (.lit n)
  | .res => some .res
  | .u32 _ | .bytes _ | .width _ | .config _ => none

/-- An operand of type LedConfiguration. -/
def asConfig : OperandVal → Option (Arg LedConfiguration)
  | .config c => some (.lit c)
  | .res => some .res
  | .u32 _ | .bytes _ | .width _ | .offset _ => none

/-- A typed tuple, or the shape error. -/
def typed (i : Option Instr) : Except DecodeError Instr :=
  match i with
  | some i => .ok i
  | none => .error .operandShape

/-- R71: every 4-bit selector names one row; selectors with `op[3] = 1` are the reserved row, with any operands (R80).
R91 gives the operand order. -/
def decode (d : Descriptor) : Except DecodeError Instr :=
  match d.op.toNat with
  | 0 =>
    match d.operands with
    | [v, w] => typed ((asU32 v).bind fun v => (asWidth w).map fun w => .pack v w)
    | _ => .error .operandCount
  | 1 =>
    match d.operands with
    | [bs, w] => typed ((asBytes bs).bind fun bs => (asWidth w).map fun w => .unpack bs w)
    | _ => .error .operandCount
  | 2 =>
    match d.operands with
    | [raw] => typed ((asU32 raw).map .ledDecode)
    | _ => .error .operandCount
  | 3 =>
    match d.operands with
    | [c] => typed ((asConfig c).map .ledEncode)
    | _ => .error .operandCount
  | 4 =>
    match d.operands with
    | [] => .ok .dsRead
    | _ => .error .operandCount
  | 5 =>
    match d.operands with
    | [c] => typed ((asConfig c).map .dsWrite)
    | _ => .error .operandCount
  | 6 =>
    match d.operands with
    | [off, w] => typed ((asOffset off).bind fun off => (asWidth w).map fun w => .dsReadRaw off w)
    | _ => .error .operandCount
  | 7 =>
    match d.operands with
    | [off, w, v] =>
      typed ((asOffset off).bind fun off => (asWidth w).bind fun w => (asU32 v).map fun v => .dsWriteRaw off w v)
    | _ => .error .operandCount
  | _ => .ok (.reserved d.op d.operands)

/-- An operand as it stands in a descriptor: the literal in its type, or `res`. -/
def Arg.toOperand {α : Type} (f : α → OperandVal) : Arg α → OperandVal
  | .lit a => f a
  | .res => .res

/-- R71: the descriptor of an instruction. -/
def encode : Instr → Descriptor
  | .pack v w => ⟨0x0, [v.toOperand .u32, w.toOperand .width]⟩
  | .unpack bs w => ⟨0x1, [bs.toOperand .bytes, w.toOperand .width]⟩
  | .ledDecode raw => ⟨0x2, [raw.toOperand .u32]⟩
  | .ledEncode c => ⟨0x3, [c.toOperand .config]⟩
  | .dsRead => ⟨0x4, []⟩
  | .dsWrite c => ⟨0x5, [c.toOperand .config]⟩
  | .dsReadRaw off w => ⟨0x6, [off.toOperand .offset, w.toOperand .width]⟩
  | .dsWriteRaw off w v => ⟨0x7, [off.toOperand .offset, w.toOperand .width, v.toOperand .u32]⟩
  | .reserved op operands => ⟨op, operands⟩

/-- The configuration whose every part is zero: what an operand port of type LedConfiguration carries when it carries
zeros (LOG 1, DESIGN CHOICE). -/
def zeroConfig : LedConfiguration := ⟨⟨.off, .off, .off⟩, .fixed0, 0⟩

/-- The operand tuple of a selector's row with zero on every port. -/
def zeroOperands (op : BitVec 4) : List OperandVal :=
  match op.toNat with
  | 0 => [.u32 0, .width 0]
  | 1 => [.bytes [], .width 0]
  | 2 => [.u32 0]
  | 3 => [.config zeroConfig]
  | 4 => []
  | 5 => [.config zeroConfig]
  | 6 => [.offset 0, .width 0]
  | 7 => [.offset 0, .width 0, .u32 0]
  | _ => []

/-- The descriptor that a word of the opcode table stands for: the selector is its bits 3..0, the only bits a descriptor
has (R71), and every operand port carries zero (LOG 1). -/
def tableDescriptor (w : Nat) : Descriptor := ⟨BitVec.ofNat 4 w, zeroOperands (BitVec.ofNat 4 w)⟩

/-- The instruction the decoder reads from a word of the opcode table; none for a word shorter than the selector. -/
def decodeTableWord (nbits w : Nat) : Option Instr :=
  if nbits < 4 then none
  else
    match decode (tableDescriptor w) with
    | .ok i => some i
    | .error _ => none

end Sys2Proof
end

