-- ==== Sys2Proof/Config.lean ====
section
/-! DEFINITION. What an implementation fixes (the record `Params` of R6), and the values the spec leaves open, as constants without a body. -/

namespace Sys2Proof

/-- R6: the implementation parameters. `NLEDS`, `REG_WIDTH` and `WIDTHS` have one value each and are fixed by the types
and by `Config.widths` (LOG 6); `LED_REG_RESET` is `Config.ledRegReset`. Offsets, masks and identifiers have no width in
the spec, so they are natural numbers (LOG 22). -/
structure Params where
  /-- `NIB_OFF(i)`: bit offset of LED i's trigger nibble. -/
  nibOff : Triple Nat
  /-- `BIT_10M`, `BIT_100M`, `BIT_1000M`, `BIT_ACT`: bit positions inside a nibble. -/
  bit10m : Nat
  bit100m : Nat
  bit1000m : Nat
  bitAct : Nat
  /-- `BIT_2500M(i)`: bit of LED i's 2500M trigger. -/
  bit2500m : Triple Nat
  /-- `BIT_ALOW(i)`: bit of LED i's active-low flag. -/
  bitAlow : Triple Nat
  /-- `BD_LO`, `BD_HI`: blink/duty pattern field bounds. -/
  bdLo : Nat
  bdHi : Nat
  /-- `BD_TABLE`: entry p is the (interval, duty per mille) of pattern p, none where p is undefined (R32). -/
  bdTable : List (Option (Interval × Nat))
  /-- `DUTY_SENTINEL`: duty decoded from an unrecognised pattern, per mille. -/
  dutySentinel : Nat
  /-- `HAS_2500M`: the chip variant has the 2500M trigger bits. -/
  has2500m : Bool
  /-- `BLINK_DURATION(k)`; no rule reads it (R30). -/
  blinkDuration : Triple Nat
  /-- `LED_REG`: PLA offset of the LED configuration register. -/
  ledReg : Nat
  /-- `PLA_BASE`: the PLA selector OR-ed into the register index field. -/
  plaBase : Nat
  /-- `BYTE_MASK(w)` for the three widths. -/
  byteMask8 : Nat
  byteMask16 : Nat
  byteMask32 : Nat
  /-- `OFFSET_BITS`: width of a PLA register offset. -/
  offsetBits : Nat
  /-- `TRANSPORT_TIMEOUT`; no rule reads it (R245). -/
  transportTimeout : Nat
  /-- `VID`, `PID`: identifiers used to filter devices. -/
  vid : Nat
  pid : Nat
deriving DecidableEq, Repr

/-- R170: how a transfer fails. -/
inductive TransportFault where
  | timeout
  | failure
deriving DecidableEq, Repr, Inhabited

/-- R173: the outcome of opening the device. -/
inductive OpenOutcome where
  | handle
  | deviceNotFound
  | multipleMatches
deriving DecidableEq, Repr, Inhabited

/-- R170: what the transport draws for a read: a count of bytes and a 32-bit device draw `d` (R55, R57), or a failure.
A count above the bytes asked for stands for all of them (LOG 16). -/
inductive ReadDraw where
  | ok (k : Nat) (d : Word)
  | err (f : TransportFault)
deriving DecidableEq, Repr, Inhabited

/-- R170: the outcome of a write: the count of bytes transferred, or a failure. -/
inductive WriteOutcome where
  | ok (k : Nat)
  | err (f : TransportFault)
deriving DecidableEq, Repr, Inhabited

/-- R6 `WIDTHS`: the supported access widths. -/
def Config.widths : List Nat := [8, 16, 32]

/-- R6 `HAS_2500M`, OPEN. -/
opaque Config.has2500m : Bool

/-- R6 `BLINK_DURATION(k)`, OPEN. -/
opaque Config.blinkDuration : Nat → Nat

/-- R6 `PLA_BASE`, OPEN. -/
opaque Config.plaBase : Nat

/-- R6 `TRANSPORT_TIMEOUT`, OPEN. -/
opaque Config.transportTimeout : Nat

/-- R6 `VID`, OPEN. -/
opaque Config.vid : Nat

/-- R6 `PID`, OPEN. -/
opaque Config.pid : Nat

/-- R6, R34 `LED_REG_RESET`: the LED register's value after power-on, OPEN. -/
opaque Config.ledRegReset : Word

/-- Free value (D26): the outcome of opening the device, at the n-th draw (LOG 16). -/
opaque Config.openDraw : Nat → OpenOutcome

/-- Free value (D22, D25): the outcome and the data of a read, at the n-th draw (LOG 16). -/
opaque Config.readDraw : Nat → ReadDraw

/-- Free value (D25): the outcome of a write, at the n-th draw (LOG 16). -/
opaque Config.writeDraw : Nat → WriteOutcome

end Sys2Proof
end

