-- ==== Sys2Proof/Machine/Layout.lean ====
section
/-! DEFINITION. The LED configuration register's layout (R24 to R32), the conditions on `Params` (R7) and the decided default. -/

namespace Sys2Proof.Machine

/-- A 32-bit word with bit `k` set to `b` and every other bit 0: `zext_32(bool(b)) << k`. -/
def bitAt (b : Bool) (k : Nat) : Word := (BitVec.ofBool b).zeroExtend 32 <<< k

/-- A 32-bit word with bits `lo + n - 1 .. lo` set. -/
def maskAt (lo n : Nat) : Word := (BitVec.ofNat 32 (2 ^ n - 1)) <<< lo

/-- The bits 7:0, 15:8, ... of a word, n bytes, the least significant first (R51, R76). -/
def leBytes (n : Nat) (v : Word) : List Byte := (List.range n).map fun k => v.extractLsb' (8 * k) 8

/-- R110: the sum of `bs[k] << 8k`, exact. -/
def leSum : List Byte → Nat
  | [] => 0
  | b :: bs => b.toNat + 256 * leSum bs

/-- The u32 whose little-endian bytes are `bs`, zero-extended. -/
def leValue (bs : List Byte) : Word := BitVec.ofNat 32 (leSum bs)

/-- R28, R75: the pattern `raw[BD_HI:BD_LO]`. -/
def bdPattern (p : Params) (raw : Word) : Nat := (raw.extractLsb' p.bdLo (p.bdHi + 1 - p.bdLo)).toNat

/-- R31, R32: `BD_TABLE(pattern)`, none where the pattern is undefined. -/
def bdEntry (p : Params) (pattern : Nat) : Option (Interval × Nat) := p.bdTable.getD pattern none

/-- R31: `BD_INV(iv, d)`, the pattern whose entry is `(iv, d)`, none where there is none. -/
def bdInv (p : Params) (e : Interval × Nat) : Option Nat :=
  (List.range 16).find? fun pattern => bdEntry p pattern == some e

/-- R133: the pair a pattern decodes to: its entry, or the sentinel pair. -/
def bdDecode (p : Params) (pattern : Nat) : Interval × Nat :=
  (bdEntry p pattern).getD (.linkSpeedDependent, p.dutySentinel)

/-- The four bits of LED i's nibble as a mask. -/
def nibbleMask (p : Params) (i : Fin 3) : Word := maskAt (p.nibOff.get i) 4

/-- R29: `FIELD_MASK`, every assigned bit of the variant. -/
def fieldMask (p : Params) : Word :=
  nibbleMask p 0 ||| nibbleMask p 1 ||| nibbleMask p 2
    ||| maskAt p.bdLo (p.bdHi + 1 - p.bdLo)
    ||| bitAt true (p.bitAlow.get 0) ||| bitAt true (p.bitAlow.get 1) ||| bitAt true (p.bitAlow.get 2)
    ||| bitAt p.has2500m (p.bit2500m.get 0) ||| bitAt p.has2500m (p.bit2500m.get 1)
    ||| bitAt p.has2500m (p.bit2500m.get 2)

/-- R29: `RESERVED_MASK`, the complement of `FIELD_MASK`. -/
def reservedMask (p : Params) : Word := ~~~ fieldMask p

/-- R130: LED i's setting as a register word gives it (R25, R26, R27). -/
def decodeLed (p : Params) (raw : Word) (i : Fin 3) : LedSetting where
  link10 := raw.getLsbD (p.nibOff.get i + p.bit10m)
  link100 := raw.getLsbD (p.nibOff.get i + p.bit100m)
  link1000 := raw.getLsbD (p.nibOff.get i + p.bit1000m)
  link2500 := raw.getLsbD (p.bit2500m.get i) && p.has2500m
  activity := if raw.getLsbD (p.nibOff.get i + p.bitAct) then .allSpeeds else .none
  activeLow := raw.getLsbD (p.bitAlow.get i)

/-- R130: the configuration of a register word; total (R134). -/
def decodeConfig (p : Params) (raw : Word) : LedConfiguration where
  leds := Triple.ofFn (decodeLed p raw)
  blinkInterval := (bdDecode p (bdPattern p raw)).1
  dutyPermille := (bdDecode p (bdPattern p raw)).2

/-- R14: an LED blinks on traffic activity. -/
def blinksOnActivity (s : LedSetting) : Bool := s.activity == .allSpeeds

/-- R140: LED i's trigger nibble, 4 bits in the low end of the word. -/
def triggerNibble (p : Params) (s : LedSetting) : Word :=
  bitAt s.link10 p.bit10m ||| bitAt s.link100 p.bit100m ||| bitAt s.link1000 p.bit1000m
    ||| bitAt (blinksOnActivity s) p.bitAct

/-- R140: the bits LED i's setting contributes to the register word. -/
def encodeLed (p : Params) (i : Fin 3) (s : LedSetting) : Word :=
  triggerNibble p s <<< p.nibOff.get i ||| bitAt s.link2500 (p.bit2500m.get i) ||| bitAt s.activeLow (p.bitAlow.get i)

/-- R140: the register word of a configuration whose blink/duty pattern is `pattern`. -/
def encodeWord (p : Params) (c : LedConfiguration) (pattern : Nat) : Word :=
  encodeLed p 0 (c.leds.get 0) ||| encodeLed p 1 (c.leds.get 1) ||| encodeLed p 2 (c.leds.get 2)
    ||| BitVec.ofNat 32 pattern <<< p.bdLo

/-- R140: some LED asks for the 2500M trigger. -/
def asks2500m (c : LedConfiguration) : Bool :=
  (c.leds.get 0).link2500 || (c.leds.get 1).link2500 || (c.leds.get 2).link2500

/-- The configuration of the source's example, `cfg(10M+100M+1000M, ACT, -, LSD, 500)` (R154, V1). -/
def exampleConfig : LedConfiguration where
  leds := ⟨⟨true, true, true, false, .none, false⟩, ⟨false, false, false, false, .allSpeeds, false⟩, .off⟩
  blinkInterval := .linkSpeedDependent
  dutyPermille := 500

/-- The source's example word (R154). -/
def exampleWord : Word := 0x000e0087

/-- R7 condition 1: the nibbles lie inside bits 15..0; that they do not overlap is in condition 5. -/
def nibblesLow (p : Params) : Bool := p.nibOff.toList.all fun o => o + 3 ≤ 15

/-- R7 condition 2: every 2500M bit lies in bits 31..16. -/
def bits2500mHigh (p : Params) : Bool := p.bit2500m.toList.all fun b => 16 ≤ b ∧ b ≤ 31

/-- R7 condition 3, that each active-low bit lies outside every nibble, stands in condition 5; here that it is a bit of
the 32-bit register. -/
def bitsAlowInside (p : Params) : Bool := p.bitAlow.toList.all fun b => b ≤ 31

/-- R7 condition 4: the blink/duty field lies inside bits 31..16; it is 4 bits wide (R28, LOG 7). -/
def bdFieldHigh (p : Params) : Bool := 16 ≤ p.bdLo ∧ p.bdHi ≤ 31 ∧ p.bdHi = p.bdLo + 3

/-- The fields of conditions 1 to 4, each as its lowest bit and its width. -/
def fieldRanges (p : Params) : List (Nat × Nat) :=
  p.nibOff.toList.map (·, 4) ++ p.bit2500m.toList.map (·, 1) ++ p.bitAlow.toList.map (·, 1) ++ [(p.bdLo, 4)]

/-- Two fields share no bit. -/
def apart (a b : Nat × Nat) : Bool := a.1 + a.2 ≤ b.1 ∨ b.1 + b.2 ≤ a.1

/-- R7 condition 5: the fields are pairwise disjoint. -/
def fieldsDisjoint (p : Params) : Bool := (fieldRanges p).Pairwise fun a b => apart a b

/-- R7 condition 5 for the fields inside a nibble: the four trigger bits are four different bits of it (R25, LOG 7). -/
def triggerBitsDistinct (p : Params) : Bool :=
  [p.bit10m, p.bit100m, p.bit1000m, p.bitAct].Nodup ∧
    ([p.bit10m, p.bit100m, p.bit1000m, p.bitAct].all fun b => b ≤ 3)

/-- R7 condition 6: `BD_TABLE` is injective on the patterns it defines; it is a table of the 16 patterns (LOG 7). -/
def bdTableInjective (p : Params) : Bool :=
  p.bdTable.length = 16 ∧ (p.bdTable.filter Option.isSome).Nodup

/-- R7 condition 7: the source's example decodes as the source says, its blink/duty pair by an entry of the table. -/
def exampleDecodes (p : Params) : Bool :=
  bdEntry p (bdPattern p exampleWord) == some (.linkSpeedDependent, 500) &&
    decodeConfig p exampleWord == exampleConfig

/-- R7 condition 8: `BD_TABLE` contains the sentinel pair. -/
def sentinelInTable (p : Params) : Bool := p.bdTable.contains (some (.linkSpeedDependent, p.dutySentinel))

/-- R7: `Params` is well-formed. -/
def paramsOk (p : Params) : Bool :=
  nibblesLow p && bits2500mHigh p && bitsAlowInside p && bdFieldHigh p && fieldsDisjoint p && triggerBitsDistinct p
    && bdTableInjective p && exampleDecodes p && sentinelInTable p

/-- R31: the interval that pattern bits `BD[3:2]` select. -/
def defaultInterval : Fin 4 → Interval
  | 0 => .fixed0
  | 1 => .fixed1
  | 2 => .fixed2
  | 3 => .linkSpeedDependent

/-- R31: the duty cycle that pattern bits `BD[1:0]` select, per mille. -/
def defaultDuty : Fin 4 → Nat
  | 0 => 125
  | 1 => 250
  | 2 => 500
  | 3 => 750

/-- R31: the product table, entry `4 * BD[3:2] + BD[1:0]`. -/
def defaultTable : List (Option (Interval × Nat)) :=
  [0, 1, 2, 3].flatMap fun (i : Fin 4) => [0, 1, 2, 3].map fun (d : Fin 4) => some (defaultInterval i, defaultDuty d)

/-- R6, R24: the decided default; the OPEN parameters are the opaque constants of Config. -/
def defaultParams : Params where
  nibOff := ⟨0, 4, 8⟩
  bit10m := 0
  bit100m := 1
  bit1000m := 2
  bitAct := 3
  bit2500m := ⟨20, 21, 22⟩
  bitAlow := ⟨24, 25, 26⟩
  bdLo := 16
  bdHi := 19
  bdTable := defaultTable
  dutySentinel := 500
  has2500m := Config.has2500m
  blinkDuration := ⟨Config.blinkDuration 0, Config.blinkDuration 1, Config.blinkDuration 2⟩
  ledReg := 0xdd90
  plaBase := Config.plaBase
  byteMask8 := 0x1
  byteMask16 := 0x3
  byteMask32 := 0xF
  offsetBits := 16
  transportTimeout := Config.transportTimeout
  vid := Config.vid
  pid := Config.pid

end Sys2Proof.Machine
end

