-- ==== Sys2Proof/Machine/State.lean ====
section
/-! DEFINITION. The machine's state: the harness of R22, the device of R54, the parameters of R6, and the model's own inputs. -/

namespace Sys2Proof.Machine

/-- R200: the source's errors. -/
inductive Error where
  | deviceNotFound
  | multipleMatches
  | transportTimeout
  | transportError
  | unsupportedWidth
  | invalidWidth
  | unsupportedConfiguration
deriving DecidableEq, Repr

/-- R203: the spec's refusals. They end a run with status `Refused`; they are no refusals of the model. -/
inductive Reason where
  | illegalOperation
  | valueTooWide
  | offsetRange
  | misaligned
  | operandType
  | badParams
deriving DecidableEq, Repr

/-- R22: the status of a run. -/
inductive Status where
  | running
  | done
  | error (e : Error)
  | refused (q : Reason)
deriving DecidableEq, Repr

/-- R22, R35: the transport handle. -/
inductive Handle where
  | closed
  | opened
deriving DecidableEq, Repr

/-- R22: a result. `unit` is the result of the two writes (R185, R195; 95_test_vectors.md P2; LOG 11). -/
inductive Value where
  | u32 (v : Word)
  | bytes (bs : List Byte)
  | config (c : LedConfiguration)
  | unit
deriving DecidableEq, Repr

/-- R54: what the model keeps of the device. -/
structure DevState where
  /-- The value last written to the LED register by a completed 32-bit write at `LED_REG`. -/
  led : Word
  /-- Whether `led` holds such a value. -/
  known : Bool
deriving DecidableEq, Repr

/-- R173: how a program names its device. -/
inductive Selector where
  | vendorProduct (vendorId productId : Nat)
  | busAddress (bus deviceAddress : Nat)
deriving DecidableEq, Repr

/-- R170, R172: the outcome of a read as the log shows it: the count and the bytes transferred, or the failure. -/
inductive ReadOutcome where
  | ok (k : Nat) (data : List Byte)
  | err (f : TransportFault)
deriving DecidableEq, Repr

/-- R172: a transport event: offset, width and register index field of the transfer, then what it carried. -/
inductive Event where
  | opening (selector : Selector) (outcome : OpenOutcome)
  | read (off w index : Nat) (outcome : ReadOutcome)
  | write (off w index : Nat) (bs : List Byte) (outcome : WriteOutcome)
deriving DecidableEq, Repr

/-- The model's own field (LOG 16): the transport's answers still to come, in order, for each kind of request. Where a
list is empty the answer is the opaque constant of Config at index `drawn`. -/
structure Oracle where
  opens  : List OpenOutcome
  reads  : List ReadDraw
  writes : List WriteOutcome
  drawn  : Nat
deriving DecidableEq, Repr

/-- The model's own type (LOG 19): what the outside world does at a step boundary. -/
inductive Input where
  /-- Nothing: the harness takes its step. -/
  | quiet
  /-- R220: the device loses power. -/
  | powerCycle
  /-- R207: the run is cut off (LOG 20). -/
  | terminate
  /-- R209, R231: a new invocation starts, with this selector and program. -/
  | invoke (selector : Selector) (prog : List Descriptor)
deriving DecidableEq, Repr

/-- The state of the machine. -/
structure State where
  /-- R6, R20: fixed before the first operation; no operation writes it. -/
  params : Params
  /-- R22: the program text; no operation writes it. -/
  prog : List Descriptor
  /-- R173: the selector the prologue opens. -/
  selector : Selector
  /-- R22: index of the next operation. -/
  pc : Nat
  /-- R22: result of the last operation that ended Ok. -/
  res : Option Value
  status : Status
  handle : Handle
  dev : DevState
  /-- R22, R172: the transport events, oldest first. -/
  log : List Event
  /-- The model's own: the transport's answers (R170). -/
  oracle : Oracle
  /-- The model's own: the outside events (R207, R209, R220). -/
  inputs : List Input
  /-- The model's own: the run was cut off from outside, its status unchanged (R207; LOG 20). -/
  cutOff : Bool
deriving DecidableEq, Repr

/-- Why the machine stops. -/
inductive Fault where
  /-- Raised by a step when the status is not Running and no outside event is pending: R23 takes no step there. Safe. -/
  | runEnded
  /-- Raised by a harness step of a run that was cut off from outside (R207, I24: stuck). Safe. -/
  | terminated
  /-- Raised by a step when pc is past the end of the program, which no run reaches and the spec gives no meaning
  (LOG 14). Safe. -/
  | pcPastEnd
deriving DecidableEq, Repr

/-- What the model gives no meaning. -/
inductive Refusal where
  /-- Raised by no instruction of this model: every arm of `exec` has its meaning. Safe. -/
  | notModelled (mnemonic : String)
  /-- Raised by a step when the operand tuple at pc is not of its selector's row in R71 (LOG 13). Safe. -/
  | malformedDescriptor (e : DecodeError)
deriving DecidableEq, Repr

/-- R231, R232: the machine after power-on, before its first invocation: pc 0, no result, Running, handle Closed, empty
log, LED register unknown. The program, the selector and the model's own fields are LOG 3, 16 and 19. -/
def State.reset : State where
  params := defaultParams
  prog := []
  selector := .vendorProduct Config.vid Config.pid
  pc := 0
  res := none
  status := .running
  handle := .closed
  dev := ⟨Config.ledRegReset, false⟩
  log := []
  oracle := ⟨[], [], [], 0⟩
  inputs := []
  cutOff := false

end Sys2Proof.Machine
end

