-- ==== Sys2Proof/Machine/Ops.lean ====
section
/-! DEFINITION. The named operations: an operation's outcome (R10), how an outcome ends it (R23, R208), the transport and the device (R54 to R57, R170 to R174). -/

namespace Sys2Proof.Machine

/-- R10: the outcome of an operation. -/
inductive Result (α : Type) where
  | ok (a : α)
  | err (e : Error)
  | refused (q : Reason)
deriving DecidableEq, Repr

/-- Continue with an Ok result; an error or a refusal ends the operation (R10). -/
def Result.bind {α β : Type} (r : Result α) (f : α → Result β) : Result β :=
  match r with
  | .ok a => f a
  | .err e => .err e
  | .refused q => .refused q

/-- An Ok result under a function. -/
def Result.map {α β : Type} (f : α → β) (r : Result α) : Result β := r.bind fun a => .ok (f a)

/-- Continue in a state with an Ok result; an error or a refusal ends the operation there. -/
def Result.thenIn {α β : Type} (r : Result α) (s : State) (f : α → Result β × State) : Result β × State :=
  match r with
  | .ok a => f a
  | .err e => (.err e, s)
  | .refused q => (.refused q, s)

/-- R200: the code of an error (D24). -/
def errorCode : Error → Nat
  | .deviceNotFound => 1
  | .multipleMatches => 2
  | .transportTimeout => 3
  | .transportError => 4
  | .unsupportedWidth => 5
  | .invalidWidth => 6
  | .unsupportedConfiguration => 7

/-- R170: the error a failed transfer raises. -/
def faultError : TransportFault → Error
  | .timeout => .transportTimeout
  | .failure => .transportError

/-! ### How an operation ends (R23) -/

/-- R23, `Ok v`: the result is kept and pc advances. -/
def State.complete (s : State) (v : Value) : State := { s with res := some v, pc := s.pc + 1 }

/-- R23, R208, `Err e`: the one way an error is taken. The handle is released and the status holds the error; pc and
res stay as they were. No mode changes, nothing else is saved and no vector is taken. -/
def State.raiseError (s : State) (e : Error) : State := { s with handle := .closed, status := .error e }

/-- R23, `Refused q`: as an error, with the refusal's reason. -/
def State.refuse (s : State) (q : Reason) : State := { s with handle := .closed, status := .refused q }

/-- R23: the end of a run after the last operation. -/
def State.finishRun (s : State) : State := { s with handle := .closed, status := .done }

/-- R23: how an operation's outcome ends its step. -/
def State.conclude (s : State) (r : Result Value) : State :=
  match r with
  | .ok v => s.complete v
  | .err e => s.raiseError e
  | .refused q => s.refuse q

/-- R209, R231: a new invocation, the one return from an error. The harness state is fresh; the device carries over, and
with it what is not host state: the parameters, the transport and the outside world. -/
def State.startProgram (s : State) (selector : Selector) (prog : List Descriptor) : State :=
  { s with
    prog := prog, selector := selector, pc := 0, res := none, status := .running, handle := .closed, log := []
    cutOff := false }

/-- R207: the run is cut off from outside: its status and the device are as they were (LOG 20). -/
def State.cutRun (s : State) : State := { s with cutOff := true }

/-- R172: append an event to the log. -/
def State.record (s : State) (ev : Event) : State := { s with log := s.log ++ [ev] }

/-! ### The device (R54 to R57) -/

/-- R55: the value of a complete 32-bit read at `LED_REG`, for a device draw `d`. -/
def ledReadValue (p : Params) (dev : DevState) (d : Word) : Word :=
  if dev.known then
    if dev.led &&& reservedMask p = 0 then dev.led
    else (dev.led &&& fieldMask p) ||| (d &&& reservedMask p)
  else d

/-- R55, R57, R171: the bytes of a read of `n` bytes at `off` of which `k` arrive. A complete 32-bit read at `LED_REG`
gives the LED register's value; every other byte is a draw. -/
def readBytes (p : Params) (dev : DevState) (off n k : Nat) (d : Word) : List Byte :=
  if off = p.ledReg ∧ n = 4 ∧ k = 4 then leBytes 4 (ledReadValue p dev d) else leBytes k d

/-- R56: the device after a write. A complete 32-bit write at `LED_REG` stores its value; every other write leaves the
LED register unknown. -/
def deviceAfterWrite (p : Params) (dev : DevState) (off n : Nat) (bs : List Byte) (o : WriteOutcome) : DevState :=
  if off = p.ledReg ∧ n = 4 ∧ o = .ok 4 then ⟨leValue bs, true⟩ else { dev with known := false }

/-- R56, R220: the device after it loses power. -/
def deviceAfterPowerCycle (dev : DevState) : DevState := { dev with known := false }

/-! ### The transport (R170 to R174) -/

/-- R174: `BYTE_MASK(w)`. -/
def byteMask (p : Params) (w : Nat) : Nat :=
  if w = 32 then p.byteMask32 else if w = 16 then p.byteMask16 else p.byteMask8

/-- R174: the register index field of a transfer of width w. -/
def indexField (p : Params) (w : Nat) : Nat := p.plaBase ||| byteMask p w <<< 4 ||| byteMask p w

/-- The transport's next answer to an open, and the oracle after it (LOG 16). -/
def drawOpen (o : Oracle) : OpenOutcome × Oracle :=
  match o.opens with
  | x :: rest => (x, { o with opens := rest })
  | [] => (Config.openDraw o.drawn, { o with drawn := o.drawn + 1 })

/-- The transport's next answer to a read, and the oracle after it (LOG 16). -/
def drawRead (o : Oracle) : ReadDraw × Oracle :=
  match o.reads with
  | x :: rest => (x, { o with reads := rest })
  | [] => (Config.readDraw o.drawn, { o with drawn := o.drawn + 1 })

/-- The transport's next answer to a write, and the oracle after it (LOG 16). -/
def drawWrite (o : Oracle) : WriteOutcome × Oracle :=
  match o.writes with
  | x :: rest => (x, { o with writes := rest })
  | [] => (Config.writeDraw o.drawn, { o with drawn := o.drawn + 1 })

/-- R170: a write transfers between 0 and n bytes. -/
def boundedWrite (n : Nat) : WriteOutcome → WriteOutcome
  | .ok k => .ok (min k n)
  | .err f => .err f

/-- R173: `MultipleMatches` occurs only for a vendor/product selector (LOG 18). -/
def openOutcome (selector : Selector) (x : OpenOutcome) : OpenOutcome :=
  match selector, x with
  | .busAddress _ _, .multipleMatches => .deviceNotFound
  | .busAddress _ _, .handle => .handle
  | .busAddress _ _, .deviceNotFound => .deviceNotFound
  | .vendorProduct _ _, y => y

/-- R23, R173: the prologue's open, with its event (R172). -/
def openDevice (s : State) : State :=
  let x := drawOpen s.oracle
  let s := { s with oracle := x.2 }.record (.opening s.selector (openOutcome s.selector x.1))
  match openOutcome s.selector x.1 with
  | .handle => { s with handle := .opened }
  | .deviceNotFound => s.raiseError .deviceNotFound
  | .multipleMatches => s.raiseError .multipleMatches

/-- R171: `MemRead(off, n)`, exactly one transfer, its event (R172) and what it returns. A read never changes the device
(R56). -/
def memRead (off n : Nat) (s : State) : Result (List Byte) × State :=
  let x := drawRead s.oracle
  let s := { s with oracle := x.2 }
  match x.1 with
  | .ok k d =>
    let bs := readBytes s.params s.dev off n (min k n) d
    (.ok bs, s.record (.read off (8 * n) (indexField s.params (8 * n)) (.ok (min k n) bs)))
  | .err f => (.err (faultError f), s.record (.read off (8 * n) (indexField s.params (8 * n)) (.err f)))

/-- R171: `MemWrite(off, n, bs)`, exactly one transfer, its event (R172), the device after it (R56) and the count of
bytes it returns. -/
def memWrite (off n : Nat) (bs : List Byte) (s : State) : Result Nat × State :=
  let x := drawWrite s.oracle
  let o := boundedWrite n x.1
  let s := { s with oracle := x.2, dev := deviceAfterWrite s.params s.dev off n bs o }
  let s := s.record (.write off (8 * n) (indexField s.params (8 * n)) bs o)
  match o with
  | .ok k => (.ok k, s)
  | .err f => (.err (faultError f), s)

end Sys2Proof.Machine
end

