-- ==== Sys2Proof/Machine/Operands.lean ====
section
/-! DEFINITION. Resolving operands (R23): a literal stands for itself, `res` for the current result when it has the operand's type. -/

namespace Sys2Proof.Machine

/-- R23: an operand of type u32. -/
def resolveU32 (a : Arg Word) (s : State) : Result Word :=
  match a with
  | .lit v => .ok v
  | .res =>
    match s.res with
    | some (.u32 v) => .ok v
    | some (.bytes _) | some (.config _) | some .unit | none => .refused .operandType

/-- R23: an operand of type Bytes. -/
def resolveBytes (a : Arg (List Byte)) (s : State) : Result (List Byte) :=
  match a with
  | .lit bs => .ok bs
  | .res =>
    match s.res with
    | some (.bytes bs) => .ok bs
    | some (.u32 _) | some (.config _) | some .unit | none => .refused .operandType

/-- R23: an operand of type LedConfiguration. -/
def resolveConfig (a : Arg LedConfiguration) (s : State) : Result LedConfiguration :=
  match a with
  | .lit c => .ok c
  | .res =>
    match s.res with
    | some (.config c) => .ok c
    | some (.u32 _) | some (.bytes _) | some .unit | none => .refused .operandType

/-- R23: an operand of type Width or Offset. No result has either type (R22), so `res` is always of the wrong type
(LOG 12). -/
def resolveNat (a : Arg Nat) : Result Nat :=
  match a with
  | .lit n => .ok n
  | .res => .refused .operandType

end Sys2Proof.Machine
end

