-- ==== Sys2Proof/Machine/LedCodec.lean ====
section
/-! DEFINITION. LED_DECODE and LED_ENCODE (41_led_codec.md), and the merge a caller makes of reserved bits (R155). -/

namespace Sys2Proof.Machine

/-- R140: the register word of a configuration. Both checks give the same error (R205), and a duty value is never
rounded (R143). -/
def encodeConfig (p : Params) (c : LedConfiguration) : Result Word :=
  if asks2500m c && !p.has2500m then .err .unsupportedConfiguration
  else
    match bdInv p (c.blinkInterval, c.dutyPermille) with
    | some pattern => .ok (encodeWord p c pattern)
    | none => .err .unsupportedConfiguration

/-- R155: the value a caller writes to keep the reserved bits of an earlier read. No operation does this merge. -/
def mergeReserved (p : Params) (encoded prev : Word) : Word := encoded ||| (prev &&& reservedMask p)

/-- `LED_DECODE raw` (R130). -/
def execLedDecode (raw : Arg Word) (s : State) : Host.Outcome State Fault Refusal :=
  .next (s.conclude ((resolveU32 raw s).map fun raw => .config (decodeConfig s.params raw)))

/-- `LED_ENCODE c` (R140). -/
def execLedEncode (c : Arg LedConfiguration) (s : State) : Host.Outcome State Fault Refusal :=
  .next (s.conclude ((resolveConfig c s).bind fun c => (encodeConfig s.params c).map .u32))

end Sys2Proof.Machine
end

