-- ==== Sys2Proof/Machine/RegisterCodec.lean ====
section
/-! DEFINITION. PACK and UNPACK (40_register_codec.md). -/

namespace Sys2Proof.Machine

/-- R100: the little-endian bytes of a value. The width is checked before the value (R205), and a value too wide is
refused, never truncated (R101). -/
def pack (v : Word) (w : Nat) : Result (List Byte) :=
  if w ∈ Config.widths then
    if 2 ^ w ≤ v.toNat then .refused .valueTooWide else .ok (leBytes (w / 8) v)
  else .err .unsupportedWidth

/-- R110: the unsigned value of a byte list. The width is checked before the length (R205). -/
def unpack (bs : List Byte) (w : Nat) : Result Word :=
  if w ∈ Config.widths then
    if bs.length = w / 8 then .ok (leValue bs) else .err .invalidWidth
  else .err .unsupportedWidth

/-- `PACK v, w` (R100). -/
def execPack (v : Arg Word) (w : Arg Nat) (s : State) : Host.Outcome State Fault Refusal :=
  .next (s.conclude ((resolveU32 v s).bind fun v => (resolveNat w).bind fun w => (pack v w).map .bytes))

/-- `UNPACK bs, w` (R110). -/
def execUnpack (bs : Arg (List Byte)) (w : Arg Nat) (s : State) : Host.Outcome State Fault Refusal :=
  .next (s.conclude ((resolveBytes bs s).bind fun bs => (resolveNat w).bind fun w => (unpack bs w).map .u32))

end Sys2Proof.Machine
end

