-- ==== Sys2Proof/Machine/ReservedSelector.lean ====
section
/-! DEFINITION. The reserved selectors (R80). -/

namespace Sys2Proof.Machine

/-- R80, R203: a descriptor with `op[3] = 1` is refused with `IllegalOperation`, whatever its operands; nothing is
computed or transferred. The refusal is the spec's own outcome: the run ends with status Refused (R23). -/
def execReserved (_op : BitVec 4) (_operands : List OperandVal) (s : State) : Host.Outcome State Fault Refusal :=
  .next (s.refuse .illegalOperation)

end Sys2Proof.Machine
end

