-- ==== Sys2Proof/Machine/Session.lean ====
section
/-! DEFINITION. DS_READ, DS_WRITE, DS_READ_RAW, DS_WRITE_RAW (42_session.md). -/

namespace Sys2Proof.Machine

/-- R205: the checks of a raw access, all before any transfer: width, offset range (R50), alignment (R53). -/
def checkAccess (p : Params) (off w : Nat) : Result Unit :=
  if w ∈ Config.widths then
    if 2 ^ p.offsetBits ≤ off then .refused .offsetRange
    else if off % (w / 8) ≠ 0 then .refused .misaligned
    else .ok ()
  else .err .unsupportedWidth

/-- R190, R180: read w bits at `off` and unpack them; a short read has the wrong length (D23). -/
def readRegister (off w : Nat) (s : State) : Result Word × State :=
  let t := memRead off (w / 8) s
  (t.1.bind fun bs => unpack bs w, t.2)

/-- R195, R185: write the bytes of a w-bit value at `off`; a short write is a transport error (D23). -/
def writeBytes (off w : Nat) (bs : List Byte) (s : State) : Result Unit × State :=
  let t := memWrite off (w / 8) bs s
  (t.1.bind fun k => if k = w / 8 then .ok () else .err .transportError, t.2)

/-- `DS_READ` (R180). -/
def execDsRead (s : State) : Host.Outcome State Fault Refusal :=
  let t := readRegister s.params.ledReg 32 s
  .next (t.2.conclude (t.1.map fun v => .config (decodeConfig s.params v)))

/-- R185: encode, then pack, then one transfer. An encode error returns before any transfer (R241). -/
def dsWrite (c : LedConfiguration) (s : State) : Result Unit × State :=
  ((encodeConfig s.params c).bind fun raw => pack raw 32).thenIn s fun bs => writeBytes s.params.ledReg 32 bs s

/-- `DS_WRITE c` (R185). -/
def execDsWrite (c : Arg LedConfiguration) (s : State) : Host.Outcome State Fault Refusal :=
  let t := (resolveConfig c s).thenIn s fun c => dsWrite c s
  .next (t.2.conclude (t.1.map fun _ => .unit))

/-- R190: the checks, then one transfer. -/
def dsReadRaw (off w : Nat) (s : State) : Result Word × State :=
  (checkAccess s.params off w).thenIn s fun _ => readRegister off w s

/-- `DS_READ_RAW off, w` (R190). -/
def execDsReadRaw (off w : Arg Nat) (s : State) : Host.Outcome State Fault Refusal :=
  let t := (resolveNat off).thenIn s fun off => (resolveNat w).thenIn s fun w => dsReadRaw off w s
  .next (t.2.conclude (t.1.map .u32))

/-- R195: the checks, then the value check of PACK, then one transfer. -/
def dsWriteRaw (off w : Nat) (v : Word) (s : State) : Result Unit × State :=
  ((checkAccess s.params off w).bind fun _ => pack v w).thenIn s fun bs => writeBytes off w bs s

/-- `DS_WRITE_RAW off, w, v` (R195). -/
def execDsWriteRaw (off w : Arg Nat) (v : Arg Word) (s : State) : Host.Outcome State Fault Refusal :=
  let t :=
    (resolveNat off).thenIn s fun off => (resolveNat w).thenIn s fun w => (resolveU32 v s).thenIn s fun v =>
      dsWriteRaw off w v s
  .next (t.2.conclude (t.1.map fun _ => .unit))

end Sys2Proof.Machine
end

