-- ==== Sys2Proof/Machine/Dispatch.lean ====
section
/-! DEFINITION. One arm per instruction: R23's `execute(op)` and the end of its step. -/

namespace Sys2Proof.Machine

def exec (i : Instr) (s : State) : Host.Outcome State Fault Refusal :=
  match i with
  | .pack v w => Sys2Proof.Machine.execPack v w s
  | .unpack bs w => Sys2Proof.Machine.execUnpack bs w s
  | .ledDecode raw => Sys2Proof.Machine.execLedDecode raw s
  | .ledEncode c => Sys2Proof.Machine.execLedEncode c s
  | .dsRead => Sys2Proof.Machine.execDsRead s
  | .dsWrite c => Sys2Proof.Machine.execDsWrite c s
  | .dsReadRaw off w => Sys2Proof.Machine.execDsReadRaw off w s
  | .dsWriteRaw off w v => Sys2Proof.Machine.execDsWriteRaw off w v s
  | .reserved op operands => Sys2Proof.Machine.execReserved op operands s

end Sys2Proof.Machine
end

