-- ==== Sys2Proof/Machine/Harness.lean ====
section
/-! DEFINITION. The harness step (R23), the outside events between steps (R207, R209, R220), and the placing of an instruction where the harness takes its next. -/

namespace Sys2Proof.Machine

/-- R23: the operation at pc, or the end of the run. The descriptor at pc is decoded (R71) and executed. -/
def runOperation (s : State) : Host.Outcome State Fault Refusal :=
  if s.pc = s.prog.length then .next s.finishRun
  else
    match s.prog[s.pc]? with
    | none => .fault .pcPastEnd
    | some d =>
      match decode d with
      | .ok i => exec i s
      | .error e => .refused (.malformedDescriptor e)

/-- R23: the prologue, when the handle is Closed, and then the operation, in one step. A failed open ends the step. -/
def runWithHandle (s : State) : Host.Outcome State Fault Refusal :=
  match s.handle with
  | .opened => runOperation s
  | .closed =>
    match (openDevice s).handle with
    | .opened => runOperation (openDevice s)
    | .closed => .next (openDevice s)

/-- R23: one harness step, taken only while the status is Running, and not in a run that was cut off (R207). A `Params` that is not well-formed is refused before
anything else (R7, R203; LOG 10). -/
def harnessStep (s : State) : Host.Outcome State Fault Refusal :=
  match s.status with
  | .running =>
    if s.cutOff then .fault .terminated
    else if paramsOk s.params then runWithHandle s
    else .next (s.refuse .badParams)
  | .done => .fault .runEnded
  | .error _ => .fault .runEnded
  | .refused _ => .fault .runEnded

/-- One step of the machine: an outside event that is due, or else a harness step. -/
def machineStep (s : State) : Host.Outcome State Fault Refusal :=
  match s.inputs with
  | [] => harnessStep s
  | .quiet :: rest => harnessStep { s with inputs := rest }
  | .powerCycle :: rest => .next { s with inputs := rest, dev := deviceAfterPowerCycle s.dev }
  | .terminate :: rest => .next { s with inputs := rest }.cutRun
  | .invoke selector prog :: rest => .next ({ s with inputs := rest }.startProgram selector prog)

/-- A program with the descriptor `d` at index `n`; a shorter program is filled up with `d`. -/
def placeAt (prog : List Descriptor) (n : Nat) (d : Descriptor) : List Descriptor :=
  (prog ++ List.replicate (n + 1 - prog.length) d).set n d

/-- The state whose very next step runs the operation of descriptor `d`: it stands at pc, the run is Running with the
device open (R35: the prologue is done), no outside event is due, and the parameters are well-formed (LOG 2). -/
def placeDescriptor (s : State) (d : Descriptor) : State :=
  { s with
    prog := placeAt s.prog s.pc d
    status := .running
    handle := .opened
    inputs := []
    cutOff := false
    params := if paramsOk s.params then s.params else defaultParams }

end Sys2Proof.Machine
end

