-- ==== Sys2Proof/Machine/Step.lean ====
section
/-! DEFINITION. The machine's step. -/

namespace Sys2Proof.Machine

/-- One step of the machine (R23; 60_exceptions.md R207, R209, R220). -/
def step (s : State) : Host.Outcome State Fault Refusal := machineStep s

/-- The state in which the instruction of an opcode-table word is the one the next step runs (LOG 1, 2). -/
def State.withFetchWord (s : State) (_nbits w : Nat) : State := placeDescriptor s (tableDescriptor w)

end Sys2Proof.Machine
end

