-- ==== Sys2Proof/Machine/Assembler.lean ====
section
/-! DEFINITION. The harness assembly syntax (R90, R91): a line of text to its descriptor. -/

namespace Sys2Proof.Machine

/-- A space or a tab (DESIGN CHOICE, LOG 28). -/
def isBlank (c : Char) : Bool := c == ' ' || c == '\t'

/-- The text without the blanks at its two ends. -/
def trimBlanks (cs : List Char) : List Char := ((cs.dropWhile isBlank).reverse.dropWhile isBlank).reverse

/-- The parts between the separators. -/
def splitOn (sep : Char) : List Char → List (List Char)
  | [] => [[]]
  | c :: cs =>
    match splitOn sep cs with
    | [] => [[]]
    | part :: parts => if c == sep then [] :: part :: parts else (c :: part) :: parts

/-- The operands between the commas that stand outside parentheses; `depth` counts the parentheses open. -/
def splitOperands (depth : Nat) : List Char → List (List Char)
  | [] => [[]]
  | c :: cs =>
    let depth' := if c == '(' then depth + 1 else if c == ')' then depth - 1 else depth
    match splitOperands depth' cs with
    | [] => [[]]
    | part :: parts => if c == ',' && depth == 0 then [] :: part :: parts else (c :: part) :: parts

/-- The value of a hexadecimal digit, in either case (DESIGN CHOICE, LOG 28). -/
def hexDigit (c : Char) : Option Nat :=
  if '0' ≤ c ∧ c ≤ '9' then some (c.toNat - '0'.toNat)
  else if 'a' ≤ c ∧ c ≤ 'f' then some (c.toNat - 'a'.toNat + 10)
  else if 'A' ≤ c ∧ c ≤ 'F' then some (c.toNat - 'A'.toNat + 10)
  else none

/-- The number that digits write in a base, on top of `acc`. -/
def digitsFrom (base acc : Nat) : List Char → Option Nat
  | [] => some acc
  | c :: cs => (hexDigit c).bind fun d => if d < base then digitsFrom base (base * acc + d) cs else none

/-- R90 `width`, `duty`: a decimal number. -/
def parseDecimal (cs : List Char) : Option Nat := if cs.isEmpty then none else digitsFrom 10 0 cs

/-- R90: `'0x' hexdigits`. -/
def parseHex : List Char → Option Nat
  | '0' :: 'x' :: c :: cs => digitsFrom 16 0 (c :: cs)
  | _ => none

/-- R90 `u32`: a hexadecimal number below 2^32. -/
def parseU32 (cs : List Char) : Option Word :=
  (parseHex cs).bind fun n => if n < 2 ^ 32 then some (BitVec.ofNat 32 n) else none

/-- R90: `hexbyte`, which the grammar does not define: two hexadecimal digits (DESIGN CHOICE, LOG 28). -/
def parseByte : List Char → Option Byte
  | [a, b] => (hexDigit a).bind fun x => (hexDigit b).map fun y => BitVec.ofNat 8 (16 * x + y)
  | _ => none

/-- The list of the values, when every one is there. -/
def allSome {α : Type} : List (Option α) → Option (List α)
  | [] => some []
  | x :: xs => x.bind fun a => (allSome xs).map fun as => a :: as

/-- R90 `bytes`: bytes between square brackets, first byte first, each set off from the next by spaces alone (DESIGN CHOICE,
LOG 28). -/
def parseBytes (cs : List Char) : Option (List Byte) :=
  match cs, cs.reverse with
  | '[' :: _, ']' :: inside =>
    allSome (((splitOn ' ' (inside.reverse.drop 1)).filter fun part => !part.isEmpty).map parseByte)
  | _, _ => none

/-- R90 `flag`: a flag added to an LED's setting. -/
def addFlag (s : LedSetting) (flag : List Char) : Option LedSetting :=
  if flag = "10M".toList then some { s with link10 := true }
  else if flag = "100M".toList then some { s with link100 := true }
  else if flag = "1000M".toList then some { s with link1000 := true }
  else if flag = "2500M".toList then some { s with link2500 := true }
  else if flag = "ACT".toList then some { s with activity := .allSpeeds }
  else if flag = "LOW".toList then some { s with activeLow := true }
  else none

/-- The flags of a list, each added to a setting, in any order and repeats allowed (LOG 28). -/
def addFlags (s : LedSetting) : List (List Char) → Option LedSetting
  | [] => some s
  | f :: fs => (addFlag s f).bind fun s => addFlags s fs

/-- R90 `led`. No blank may stand inside a list of flags, around a `+` included (DESIGN CHOICE, LOG 28: the grammar is
silent). -/
def parseLed (cs : List Char) : Option LedSetting :=
  if cs = ['-'] then some .off else addFlags .off (splitOn '+' cs)

/-- R90 `interval`. -/
def parseInterval (cs : List Char) : Option Interval :=
  if cs = "F0".toList then some .fixed0
  else if cs = "F1".toList then some .fixed1
  else if cs = "F2".toList then some .fixed2
  else if cs = "LSD".toList then some .linkSpeedDependent
  else none

/-- R90 `config`: three LEDs, an interval and a duty. Blanks may stand around each of the five parts, none between `cfg`
and `(` (DESIGN CHOICE, LOG 28). -/
def parseConfig (cs : List Char) : Option LedConfiguration :=
  match cs, cs.reverse with
  | 'c' :: 'f' :: 'g' :: '(' :: _, ')' :: inside =>
    match (splitOn ',' (inside.reverse.drop 4)).map trimBlanks with
    | [led0, led1, led2, interval, duty] =>
      (parseLed led0).bind fun led0 => (parseLed led1).bind fun led1 => (parseLed led2).bind fun led2 =>
        (parseInterval interval).bind fun interval => (parseDecimal duty).map fun duty =>
          ⟨⟨led0, led1, led2⟩, interval, duty⟩
    | _ => none
  | _, _ => none

/-- The operand types of R71. -/
inductive OperandType where
  | u32
  | bytes
  | width
  | offset
  | config
deriving DecidableEq, Repr

/-- R90 `operand`: a literal of the operand's type, or `res`. -/
def parseOperand (t : OperandType) (cs : List Char) : Option OperandVal :=
  if cs = "res".toList then some .res
  else
    match t with
    | .u32 => (parseU32 cs).map .u32
    | .bytes => (parseBytes cs).map .bytes
    | .width => (parseDecimal cs).map .width
    | .offset => (parseHex cs).map .offset
    | .config => (parseConfig cs).map .config

/-- R71, R91: a mnemonic's selector and its operand types in order. A reserved selector has no mnemonic. -/
def mnemonicRow (m : List Char) : Option (BitVec 4 × List OperandType) :=
  if m = "PACK".toList then some (0x0, [.u32, .width])
  else if m = "UNPACK".toList then some (0x1, [.bytes, .width])
  else if m = "LED_DECODE".toList then some (0x2, [.u32])
  else if m = "LED_ENCODE".toList then some (0x3, [.config])
  else if m = "DS_READ".toList then some (0x4, [])
  else if m = "DS_WRITE".toList then some (0x5, [.config])
  else if m = "DS_READ_RAW".toList then some (0x6, [.offset, .width])
  else if m = "DS_WRITE_RAW".toList then some (0x7, [.offset, .width, .u32])
  else none

/-- The operands of a row, one text for each type. -/
def parseOperands : List OperandType → List (List Char) → Option (List OperandVal)
  | [], [] => some []
  | t :: ts, cs :: css => (parseOperand t (trimBlanks cs)).bind fun o => (parseOperands ts css).map fun os => o :: os
  | [], _ :: _ => none
  | _ :: _, [] => none

/-- A line without its comment and its label (R90); no operation reads a label. The text before the first colon is the
label, whatever it is (DESIGN CHOICE, LOG 28). -/
def stripLine (cs : List Char) : List Char :=
  let code := cs.takeWhile fun c => c != ';'
  trimBlanks (if code.contains ':' then (code.dropWhile fun c => c != ':').drop 1 else code)

/-- R90: one line of assembly to its descriptor, none where the text is no line of the grammar. Blanks part the mnemonic
from its operands and may stand around each operand (DESIGN CHOICE, LOG 28). -/
def assembleLine (cs : List Char) : Option Descriptor :=
  let line := stripLine cs
  let rest := trimBlanks (line.dropWhile fun c => !isBlank c)
  (mnemonicRow (line.takeWhile fun c => !isBlank c)).bind fun row =>
    (parseOperands row.2 (if rest.isEmpty then [] else splitOperands 0 rest)).map fun os => ⟨row.1, os⟩

/-- R90: a program, one operation a line. -/
def assemble (lines : List String) : Option (List Descriptor) := allSome (lines.map fun l => assembleLine l.toList)

end Sys2Proof.Machine
end

