-- ==== Sys2Proof/Machine/Commands.lean ====
section
/-! DEFINITION. The source's commands as the programs they expand to (R92). -/

namespace Sys2Proof.Machine

/-- R92: the source's command-line commands, the pseudo-instructions of the block. What they print is out of scope (R4). -/
inductive Command where
  /-- `show`. -/
  | showConfig
  /-- `set` with no flags. -/
  | setDefault
  /-- `set` with explicit flags, which name a configuration. -/
  | setConfig (c : LedConfiguration)
  /-- `reg --offset O --width W --read`, or with neither `--read` nor `--write` (D35). -/
  | regRead (off w : Nat)
  /-- `reg --offset O --width W --write V`. -/
  | regWrite (off w : Nat) (v : Word)
deriving DecidableEq, Repr

/-- R234: `DEFAULT_CFG`, what `set` writes when no flags are given. -/
def defaultConfig (p : Params) : LedConfiguration := decodeConfig p exampleWord

/-- R92: the operations a command expands to. -/
def commandOps (p : Params) : Command → List Instr
  | .showConfig => [.dsRead]
  | .setDefault => [.dsWrite (.lit (defaultConfig p)), .dsRead]
  | .setConfig c => [.dsWrite (.lit c), .dsRead]
  | .regRead off w => [.dsReadRaw (.lit off) (.lit w)]
  | .regWrite off w v => [.dsWriteRaw (.lit off) (.lit w) (.lit v)]

/-- R92: the program a command expands to. -/
def commandProgram (p : Params) (c : Command) : List Descriptor := (commandOps p c).map encode

/-- R92, R173: the selector of a command: `--device bus:address` where it is given, else the vendor/product filter. -/
def commandSelector (p : Params) (device : Option (Nat × Nat)) : Selector :=
  match device with
  | some (bus, address) => .busAddress bus address
  | none => .vendorProduct p.vid p.pid

/-- R92, R231: the invocation of a command, as the outside world starts it. -/
def commandInput (p : Params) (device : Option (Nat × Nat)) (c : Command) : Input :=
  .invoke (commandSelector p device) (commandProgram p c)

end Sys2Proof.Machine
end

