-- ==== Sys2Proof/Safety.lean ====
section
/-! DEFINITION. The terms that claims about runs are stated in: what an operand denotes, what an operation may raise, and what a consistent state is. -/

namespace Sys2Proof.Machine

/-- R23: the operand `a` stands for the u32 `v` in state `s`. -/
def DenotesU32 (a : Arg Word) (s : State) (v : Word) : Prop := a = .lit v ∨ a = .res ∧ s.res = some (.u32 v)

/-- R23: the operand `a` stands for the byte list `bs` in state `s`. -/
def DenotesBytes (a : Arg (List Byte)) (s : State) (bs : List Byte) : Prop :=
  a = .lit bs ∨ a = .res ∧ s.res = some (.bytes bs)

/-- R23: the operand `a` stands for the configuration `c` in state `s`. -/
def DenotesConfig (a : Arg LedConfiguration) (s : State) (c : LedConfiguration) : Prop :=
  a = .lit c ∨ a = .res ∧ s.res = some (.config c)

/-- R172: the event is a transport write. -/
def isWrite : Event → Bool
  | .write _ _ _ _ _ => true
  | .read _ _ _ _ => false
  | .opening _ _ => false

/-- R172: the event is a transfer, a read or a write. -/
def isTransfer : Event → Bool
  | .write _ _ _ _ _ => true
  | .read _ _ _ _ => true
  | .opening _ _ => false

/-- R56: the event is a complete 32-bit write at `LED_REG`. -/
def isCompleteLedWrite (p : Params) : Event → Bool
  | .write off w _ _ o => off == p.ledReg && w == 32 && o == .ok 4
  | .read _ _ _ _ => false
  | .opening _ _ => false

/-- R80: the instruction is a reserved selector. -/
def isReserved : Instr → Bool
  | .reserved _ _ => true
  | .pack _ _ | .unpack _ _ | .ledDecode _ | .ledEncode _ | .dsRead | .dsWrite _ | .dsReadRaw _ _ | .dsWriteRaw _ _ _ => false

/-- R72: the instruction reaches the device through the transport. -/
def reachesTransport : Instr → Bool
  | .dsRead | .dsWrite _ | .dsReadRaw _ _ | .dsWriteRaw _ _ _ => true
  | .pack _ _ | .unpack _ _ | .ledDecode _ | .ledEncode _ | .reserved _ _ => false

/-- R200: the errors an operation raises, by the table's column. -/
def mayRaise : Instr → List Error
  | .pack _ _ => [.unsupportedWidth]
  | .unpack _ _ => [.unsupportedWidth, .invalidWidth]
  | .ledDecode _ => []
  | .ledEncode _ => [.unsupportedConfiguration]
  | .dsRead => [.transportTimeout, .transportError, .invalidWidth]
  | .dsWrite _ => [.transportTimeout, .transportError, .unsupportedConfiguration]
  | .dsReadRaw _ _ => [.transportTimeout, .transportError, .unsupportedWidth, .invalidWidth]
  | .dsWriteRaw _ _ _ => [.transportTimeout, .transportError, .unsupportedWidth]
  | .reserved _ _ => []

/-- R203: the refusals an operation ends in, by the table's column; `operandType` is the harness's, for the operands. -/
def mayRefuse : Instr → List Reason
  | .pack _ _ => [.valueTooWide, .operandType]
  | .unpack _ _ => [.operandType]
  | .ledDecode _ => [.operandType]
  | .ledEncode _ => [.operandType]
  | .dsRead => []
  | .dsWrite _ => [.operandType]
  | .dsReadRaw _ _ => [.offsetRange, .misaligned, .operandType]
  | .dsWriteRaw _ _ _ => [.valueTooWide, .offsetRange, .misaligned, .operandType]
  | .reserved _ _ => [.illegalOperation]

/-- A log is empty, or one open of the run's device followed by transfers, which only an open that gave a handle
precedes; `MultipleMatches` is no outcome for a bus address (R172, R173). -/
def LogOk (s : State) : Prop :=
  s.log = [] ∨ ∃ outcome transfers, s.log = .opening s.selector outcome :: transfers ∧
    (∀ ev ∈ transfers, isTransfer ev = true) ∧ (transfers ≠ [] → outcome = .handle) ∧
    (∀ bus address, s.selector = .busAddress bus address → outcome ≠ .multipleMatches)

/-- What holds of every state a run reaches (R22, R23, R172, R173, R208, R231). -/
structure Consistent (s : State) : Prop where
  /-- pc stays within the program. -/
  pc_le : s.pc ≤ s.prog.length
  /-- The handle is released on every exit path. -/
  released : s.status ≠ .running → s.handle = .closed
  /-- A run is Done only after its last operation. -/
  done_at_end : s.status = .done → s.pc = s.prog.length
  /-- There is a result exactly when an operation has ended Ok. -/
  res_none : s.res = none ↔ s.pc = 0
  /-- Before the prologue nothing has run. -/
  fresh : s.status = .running → s.handle = .closed → s.pc = 0 ∧ s.log = []
  /-- While the handle is open the log begins with its open. -/
  opened : s.handle = .opened → s.log.head? = some (.opening s.selector .handle)
  log_ok : LogOk s
  /-- No operation issues a second transfer: at most one for each that ended Ok, and one for the one that failed. -/
  transfers : s.status = .running ∨ s.status = .done → (s.log.filter isTransfer).length ≤ s.pc
  transfers_end : (s.log.filter isTransfer).length ≤ s.pc + 1

end Sys2Proof.Machine
end

