-- ==== Sys2Proof/Certificates/Slice0/Obligations.lean ====
section
/-! DEFINITION. The statements for the provers, each from a numbered rule of spec/ or derived from several. A result statement
gives the whole next state as an update of the state before, so that every field it does not name is unchanged (its frame). -/

open Sys2Proof Sys2Proof.Machine

/-! ### The descriptor (R71, R80, R91) -/

/-- R71, R80, R91: descriptors written out from the table of R71 decode to the instruction of their row. The last two
clauses are the model's choice (LOG 13, DESIGN CHOICE), which no rule gives: a tuple that is no tuple of its row is refused
by name. -/
def Obligations.TableRowsDecode : Prop :=
  decode ⟨0b0000, [.u32 0x000e0087, .width 32]⟩ = .ok (.pack (.lit 0x000e0087) (.lit 32)) ∧
  decode ⟨0b0001, [.res, .width 32]⟩ = .ok (.unpack .res (.lit 32)) ∧
  decode ⟨0b0010, [.u32 0x000e0087]⟩ = .ok (.ledDecode (.lit 0x000e0087)) ∧
  decode ⟨0b0011, [.config exampleConfig]⟩ = .ok (.ledEncode (.lit exampleConfig)) ∧
  decode ⟨0b0100, []⟩ = .ok .dsRead ∧
  decode ⟨0b0101, [.config exampleConfig]⟩ = .ok (.dsWrite (.lit exampleConfig)) ∧
  decode ⟨0b0110, [.offset 0xdd90, .width 32]⟩ = .ok (.dsReadRaw (.lit 0xdd90) (.lit 32)) ∧
  decode ⟨0b0111, [.offset 0xdd90, .width 32, .u32 0x000e0087]⟩ =
    .ok (.dsWriteRaw (.lit 0xdd90) (.lit 32) (.lit 0x000e0087)) ∧
  decode ⟨0b1001, [.res]⟩ = .ok (.reserved 0b1001 [.res]) ∧
  decode ⟨0b0000, [.u32 0]⟩ = .error .operandCount ∧
  decode ⟨0b0010, [.width 32]⟩ = .error .operandShape

/-- Decoding the descriptor of any well-formed instruction gives the instruction back: no operand, no operand form and
no selector is dropped. -/
def Obligations.DescriptorDecodeInvertsEncode : Prop :=
  ∀ i : Instr, i.wellFormed = true → decode (encode i) = .ok i

/-- What the decoder accepts, it accepts from exactly one descriptor, and the instruction is well-formed. -/
def Obligations.DescriptorEncodeInvertsDecode : Prop :=
  ∀ (d : Descriptor) (i : Instr), decode d = .ok i → encode i = d ∧ i.wellFormed = true

/-- R71, R80: every selector names one row: the decoder answers every descriptor, and answers a reserved selector with
the reserved row whatever its operands. -/
def Obligations.ReservedSelectorsNeverFallThrough : Prop :=
  ∀ d : Descriptor,
    (d.op.getLsbD 3 = true → decode d = .ok (.reserved d.op d.operands)) ∧
    (d.op.getLsbD 3 = false → ∀ i, decode d = .ok i → isReserved i = false ∧ (encode i).op = d.op)

/-! ### The register codec (R100 to R121) -/

/-- R100, R101: PACK, on every width and value. -/
def Obligations.PackGivesLittleEndianBytes : Prop :=
  ∀ (a : Arg Word) (v : Word) (w : Nat) (s : State), DenotesU32 a s v →
    (w ∉ [8, 16, 32] →
      exec (.pack a (.lit w)) s = .next { s with handle := .closed, status := .error .unsupportedWidth }) ∧
    (w ∈ [8, 16, 32] → 2 ^ w ≤ v.toNat →
      exec (.pack a (.lit w)) s = .next { s with handle := .closed, status := .refused .valueTooWide }) ∧
    (w ∈ [8, 16, 32] → v.toNat < 2 ^ w → ∃ bs : List Byte,
      bs.length = w / 8 ∧ (∀ k, k < w / 8 → bs[k]? = some (BitVec.ofNat 8 (v.toNat / 2 ^ (8 * k)))) ∧
      exec (.pack a (.lit w)) s = .next { s with res := some (.bytes bs), pc := s.pc + 1 })

/-- R110, R111: UNPACK, on every width and byte list. -/
def Obligations.UnpackGivesUnsignedValue : Prop :=
  ∀ (a : Arg (List Byte)) (bs : List Byte) (w : Nat) (s : State), DenotesBytes a s bs →
    (w ∉ [8, 16, 32] →
      exec (.unpack a (.lit w)) s = .next { s with handle := .closed, status := .error .unsupportedWidth }) ∧
    (w ∈ [8, 16, 32] → bs.length ≠ w / 8 →
      exec (.unpack a (.lit w)) s = .next { s with handle := .closed, status := .error .invalidWidth }) ∧
    (w ∈ [8, 16, 32] → bs.length = w / 8 → ∃ v : Word,
      v.toNat = ((List.range (w / 8)).map fun k => (bs.getD k 0).toNat * 2 ^ (8 * k)).sum ∧ v.toNat < 2 ^ w ∧
      exec (.unpack a (.lit w)) s = .next { s with res := some (.u32 v), pc := s.pc + 1 })

/-- R120: packing a value that fits and unpacking the result gives the value. -/
def Obligations.UnpackAfterPackGivesValue : Prop :=
  ∀ (s : State) (v : Word) (w : Nat), w ∈ [8, 16, 32] → v.toNat < 2 ^ w →
    ∃ t u, exec (.pack (.lit v) (.lit w)) s = .next t ∧ exec (.unpack .res (.lit w)) t = .next u ∧
      u = { s with res := some (.u32 v), pc := s.pc + 2 }

/-- R121: unpacking bytes of the right length and packing the result gives the bytes; an unsupported width gives
UnsupportedWidth in both directions. -/
def Obligations.PackAfterUnpackGivesBytes : Prop :=
  (∀ (s : State) (bs : List Byte) (w : Nat), w ∈ [8, 16, 32] → bs.length = w / 8 →
    ∃ t u, exec (.unpack (.lit bs) (.lit w)) s = .next t ∧ exec (.pack .res (.lit w)) t = .next u ∧
      u = { s with res := some (.bytes bs), pc := s.pc + 2 }) ∧
  (∀ (s : State) (v : Word) (bs : List Byte) (w : Nat), w ∉ [8, 16, 32] →
    exec (.pack (.lit v) (.lit w)) s = .next { s with handle := .closed, status := .error .unsupportedWidth } ∧
    exec (.unpack (.lit bs) (.lit w)) s = .next { s with handle := .closed, status := .error .unsupportedWidth })

/-! ### The LED codec (R130 to R155) -/

/-- R130, R134: LED_DECODE under the decided default layout, field by field as R130 gives it, on every word. -/
def Obligations.LedDecodeReadsDefaultBitMap : Prop :=
  ∀ (a : Arg Word) (raw : Word) (has : Bool) (s : State), DenotesU32 a s raw →
    s.params = { defaultParams with has2500m := has } →
    ∃ c : LedConfiguration,
      exec (.ledDecode a) s = .next { s with res := some (.config c), pc := s.pc + 1 } ∧
      (∀ i : Fin 3,
        (c.leds.get i).link10 = raw.getLsbD (4 * i) ∧
        (c.leds.get i).link100 = raw.getLsbD (4 * i + 1) ∧
        (c.leds.get i).link1000 = raw.getLsbD (4 * i + 2) ∧
        (c.leds.get i).link2500 = (has && raw.getLsbD (20 + i)) ∧
        ((c.leds.get i).activity = .allSpeeds ↔ raw.getLsbD (4 * i + 3) = true) ∧
        (c.leds.get i).activeLow = raw.getLsbD (24 + i)) ∧
      c.blinkInterval = (match raw.getLsbD 19, raw.getLsbD 18 with
        | false, false => .fixed0 | false, true => .fixed1 | true, false => .fixed2 | true, true => .linkSpeedDependent) ∧
      c.dutyPermille = (match raw.getLsbD 17, raw.getLsbD 16 with
        | false, false => 125 | false, true => 250 | true, false => 500 | true, true => 750)

/-- R130, R132, R133 for any parameters: every field is read at its parameter's position, the 2500M trigger only on a
variant that has it, and the blink and duty pair is the table's entry or, for an undefined pattern, the sentinel pair. -/
def Obligations.LedDecodeReadsParameterFields : Prop :=
  ∀ (a : Arg Word) (raw : Word) (s : State), DenotesU32 a s raw →
    ∃ c : LedConfiguration,
      exec (.ledDecode a) s = .next { s with res := some (.config c), pc := s.pc + 1 } ∧
      (∀ i : Fin 3,
        (c.leds.get i).link10 = raw.getLsbD (s.params.nibOff.get i + s.params.bit10m) ∧
        (c.leds.get i).link100 = raw.getLsbD (s.params.nibOff.get i + s.params.bit100m) ∧
        (c.leds.get i).link1000 = raw.getLsbD (s.params.nibOff.get i + s.params.bit1000m) ∧
        (c.leds.get i).link2500 = (s.params.has2500m && raw.getLsbD (s.params.bit2500m.get i)) ∧
        ((c.leds.get i).activity = .allSpeeds ↔ raw.getLsbD (s.params.nibOff.get i + s.params.bitAct) = true) ∧
        (c.leds.get i).activeLow = raw.getLsbD (s.params.bitAlow.get i)) ∧
      (∀ e, bdEntry s.params (bdPattern s.params raw) = some e → (c.blinkInterval, c.dutyPermille) = e) ∧
      (bdEntry s.params (bdPattern s.params raw) = none →
        c.blinkInterval = .linkSpeedDependent ∧ c.dutyPermille = s.params.dutySentinel)

/-- R131: reserved bits never change what LED_DECODE gives. -/
def Obligations.LedDecodeIgnoresReservedBits : Prop :=
  ∀ (s : State) (raw m : Word), paramsOk s.params = true → m &&& reservedMask s.params = m →
    exec (.ledDecode (.lit (raw ^^^ m))) s = exec (.ledDecode (.lit raw)) s

/-- R134: a decoded configuration has no 2500M trigger on a variant without it, its blink and duty pair is in the table,
and LED_ENCODE never fails on it. -/
def Obligations.DecodedConfigurationsEncode : Prop :=
  ∀ (s : State) (raw : Word), paramsOk s.params = true →
    ∃ (c : LedConfiguration) (r : Word) (t : State),
      exec (.ledDecode (.lit raw)) s = .next t ∧ t.res = some (.config c) ∧
      (s.params.has2500m = false → ∀ i : Fin 3, (c.leds.get i).link2500 = false) ∧
      (∃ pattern, pattern < 16 ∧ bdEntry s.params pattern = some (c.blinkInterval, c.dutyPermille)) ∧
      exec (.ledEncode .res) t = .next { t with res := some (.u32 r), pc := t.pc + 1 }

/-- R140: LED_ENCODE under the decided default layout gives the word whose fields are the configuration's, its other bits
0, and fails as R142 says. -/
def Obligations.LedEncodeWritesDefaultBitMap : Prop :=
  ∀ (a : Arg LedConfiguration) (c : LedConfiguration) (has : Bool) (s : State), DenotesConfig a s c →
    s.params = { defaultParams with has2500m := has } →
    (c.dutyPermille ∉ [125, 250, 500, 750] ∨ has = false ∧ (∃ i : Fin 3, (c.leds.get i).link2500 = true) →
      exec (.ledEncode a) s = .next { s with handle := .closed, status := .error .unsupportedConfiguration }) ∧
    (c.dutyPermille ∈ [125, 250, 500, 750] → (has = false → ∀ i : Fin 3, (c.leds.get i).link2500 = false) →
      ∃ raw : Word,
        exec (.ledEncode a) s = .next { s with res := some (.u32 raw), pc := s.pc + 1 } ∧
        (∀ i : Fin 3,
          raw.getLsbD (4 * i) = (c.leds.get i).link10 ∧
          raw.getLsbD (4 * i + 1) = (c.leds.get i).link100 ∧
          raw.getLsbD (4 * i + 2) = (c.leds.get i).link1000 ∧
          (raw.getLsbD (4 * i + 3) = true ↔ (c.leds.get i).activity = .allSpeeds) ∧
          raw.getLsbD (20 + i) = (c.leds.get i).link2500 ∧
          raw.getLsbD (24 + i) = (c.leds.get i).activeLow) ∧
        raw.extractLsb' 18 2 = (match c.blinkInterval with
          | .fixed0 => 0b00 | .fixed1 => 0b01 | .fixed2 => 0b10 | .linkSpeedDependent => 0b11) ∧
        raw.extractLsb' 16 2 = (if c.dutyPermille = 125 then 0b00 else if c.dutyPermille = 250 then 0b01
          else if c.dutyPermille = 500 then 0b10 else 0b11) ∧
        raw &&& 0xF880F000 = 0)

/-- R142, R143: LED_ENCODE fails with UnsupportedConfiguration exactly when the pair has no pattern in the table or a
2500M trigger is asked of a variant without it; on every other configuration it completes. -/
def Obligations.LedEncodeFailsExactlyWhenUnsupported : Prop :=
  ∀ (a : Arg LedConfiguration) (c : LedConfiguration) (s : State), DenotesConfig a s c →
    let unsupported := (∀ pattern, pattern < 16 → bdEntry s.params pattern ≠ some (c.blinkInterval, c.dutyPermille)) ∨
      s.params.has2500m = false ∧ ∃ i : Fin 3, (c.leds.get i).link2500 = true
    (unsupported →
      exec (.ledEncode a) s = .next { s with handle := .closed, status := .error .unsupportedConfiguration }) ∧
    (¬ unsupported → ∃ raw, exec (.ledEncode a) s = .next { s with res := some (.u32 raw), pc := s.pc + 1 })

/-- R141: every bit of an LED_ENCODE result outside FIELD_MASK is 0. -/
def Obligations.LedEncodeClearsReservedBits : Prop :=
  ∀ (s : State) (c : LedConfiguration) (raw : Word), paramsOk s.params = true →
    exec (.ledEncode (.lit c)) s = .next { s with res := some (.u32 raw), pc := s.pc + 1 } →
    raw &&& reservedMask s.params = 0

/-- R150: for every well-formed `Params` and every configuration that LED_ENCODE accepts, LED_DECODE of the result gives
the configuration back. -/
def Obligations.LedDecodeInvertsEncode : Prop :=
  ∀ (s : State) (c : LedConfiguration) (raw : Word), paramsOk s.params = true →
    exec (.ledEncode (.lit c)) s = .next { s with res := some (.u32 raw), pc := s.pc + 1 } →
    exec (.ledDecode .res) { s with res := some (.u32 raw), pc := s.pc + 1 } =
      .next { s with res := some (.config c), pc := s.pc + 2 }

/-- R151: LED_ENCODE after LED_DECODE gives the word back exactly on the reachable subset, which is the image of
LED_ENCODE; on every other word it gives the word with its reserved bits cleared and, where the pattern is undefined, the
sentinel pair's pattern in its place. -/
def Obligations.LedEncodeAfterDecodeNormalises : Prop :=
  ∀ (s : State) (raw : Word), paramsOk s.params = true →
    ∃ (t : State) (r : Word), exec (.ledDecode (.lit raw)) s = .next t ∧
      exec (.ledEncode .res) t = .next { s with res := some (.u32 r), pc := s.pc + 2 } ∧
      (r = raw ↔ raw &&& reservedMask s.params = 0 ∧ (bdEntry s.params (bdPattern s.params raw)).isSome = true) ∧
      (r = raw ↔ ∃ c : LedConfiguration,
        exec (.ledEncode (.lit c)) s = .next { s with res := some (.u32 raw), pc := s.pc + 1 }) ∧
      ((bdEntry s.params (bdPattern s.params raw)).isSome = true → r = raw &&& fieldMask s.params) ∧
      (bdEntry s.params (bdPattern s.params raw) = none → ∃ pattern, pattern < 16 ∧
        bdEntry s.params pattern = some (.linkSpeedDependent, s.params.dutySentinel) ∧
        bdPattern s.params r = pattern ∧
        r &&& ~~~ maskAt s.params.bdLo 4 = raw &&& fieldMask s.params &&& ~~~ maskAt s.params.bdLo 4)

/-- R152, R153: an LED that is off and not active-low encodes to 0 in its nibble, its 2500M bit and its active-low bit, an
LED with only the activity trigger to the activity bit alone, and no other setting encodes to such bits; in every word such
bits decode back to that setting. -/
def Obligations.OffAndActivityOnlyLedsAreStable : Prop :=
  (∀ (s : State) (c : LedConfiguration) (raw : Word) (i : Fin 3), paramsOk s.params = true →
    exec (.ledEncode (.lit c)) s = .next { s with res := some (.u32 raw), pc := s.pc + 1 } →
    (c.leds.get i = .off ↔
      raw.extractLsb' (s.params.nibOff.get i) 4 = 0b0000 ∧ raw.getLsbD (s.params.bit2500m.get i) = false ∧
        raw.getLsbD (s.params.bitAlow.get i) = false) ∧
    (c.leds.get i = { LedSetting.off with activity := .allSpeeds } ↔
      raw.extractLsb' (s.params.nibOff.get i) 4 = 0b1000 ∧ raw.getLsbD (s.params.bit2500m.get i) = false ∧
        raw.getLsbD (s.params.bitAlow.get i) = false)) ∧
  (∀ (s : State) (raw : Word) (i : Fin 3), paramsOk s.params = true →
    raw.getLsbD (s.params.bit2500m.get i) = false → raw.getLsbD (s.params.bitAlow.get i) = false →
    ∃ c : LedConfiguration,
      exec (.ledDecode (.lit raw)) s = .next { s with res := some (.config c), pc := s.pc + 1 } ∧
      (raw.extractLsb' (s.params.nibOff.get i) 4 = 0b0000 → c.leds.get i = .off) ∧
      (raw.extractLsb' (s.params.nibOff.get i) 4 = 0b1000 →
        c.leds.get i = { LedSetting.off with activity := .allSpeeds }))

/-- R154: LED_DECODE of the source's example word gives the source's example configuration, for every well-formed
`Params`; and the default layout is well-formed on both variants, whatever the OPEN parameters are (R7, R24). -/
def Obligations.ExampleWordDecodes : Prop :=
  (∀ s : State, paramsOk s.params = true →
    exec (.ledDecode (.lit 0x000e0087)) s = .next { s with res := some (.config exampleConfig), pc := s.pc + 1 }) ∧
  (∀ (has : Bool) (base timeout vid pid : Nat) (d : Triple Nat),
    paramsOk { defaultParams with
      has2500m := has, plaBase := base, transportTimeout := timeout, vid := vid, pid := pid, blinkDuration := d } = true)

/-- R74: in every well-formed `Params` the source's example fixes LED0's and LED1's nibble offsets, the activity bit and
the set of link bits, and leaves LED2's offset between 8 and 12. -/
def Obligations.ExampleFixesNibbleLayout : Prop :=
  ∀ p : Params, paramsOk p = true →
    p.nibOff.get 0 = 0 ∧ p.nibOff.get 1 = 4 ∧ p.bitAct = 3 ∧
    (∀ b, b ∈ [p.bit10m, p.bit100m, p.bit1000m] ↔ b ∈ [0, 1, 2]) ∧ 8 ≤ p.nibOff.get 2 ∧ p.nibOff.get 2 ≤ 12

/-- R29: the masks of the default layout on the two variants. -/
def Obligations.DefaultMasks : Prop :=
  fieldMask { defaultParams with has2500m := true } = 0x077F0FFF ∧
  fieldMask { defaultParams with has2500m := false } = 0x070F0FFF ∧
  reservedMask { defaultParams with has2500m := true } = 0xF880F000 ∧
  reservedMask { defaultParams with has2500m := false } = 0xF8F0F000

/-- R31: the default `BD_TABLE` defines all 16 patterns, and `BD_INV` is defined exactly for the four supported duty
cycles, with any interval. -/
def Obligations.DefaultTableInverse : Prop :=
  (∀ pattern, pattern < 16 → (bdEntry defaultParams pattern).isSome = true) ∧
  (∀ (iv : Interval) (d : Nat), (bdInv defaultParams (iv, d)).isSome = true ↔ d ∈ [125, 250, 500, 750]) ∧
  (∀ (iv : Interval) (d pattern : Nat), bdInv defaultParams (iv, d) = some pattern ↔
    pattern < 16 ∧ bdEntry defaultParams pattern = some (iv, d))

/-- R155: the caller's merge keeps the earlier read's reserved bits and the configuration that was encoded. -/
def Obligations.MergeKeepsReservedBitsAndFields : Prop :=
  ∀ (s u v : State) (c : LedConfiguration) (raw prev : Word), paramsOk s.params = true →
    exec (.ledEncode (.lit c)) s = .next { s with res := some (.u32 raw), pc := s.pc + 1 } →
    exec (.ledDecode (.lit (mergeReserved s.params raw prev))) u = .next v → u.params = s.params →
    v.res = some (.config c) ∧
      mergeReserved s.params raw prev &&& reservedMask s.params = prev &&& reservedMask s.params

/-! ### The session (R170 to R198) -/

/-- R180, R55, R171, R172: DS_READ, for every answer of the transport. -/
def Obligations.DsReadOutcomes : Prop :=
  ∀ s : State,
    let o := (drawRead s.oracle).2
    let index := indexField s.params 32
    (∀ f, (drawRead s.oracle).1 = .err f →
      exec .dsRead s = .next { s with
        oracle := o, log := s.log ++ [.read s.params.ledReg 32 index (.err f)]
        handle := .closed, status := .error (faultError f) }) ∧
    (∀ k d, (drawRead s.oracle).1 = .ok k d → k < 4 → ∃ bs : List Byte, bs.length = k ∧
      exec .dsRead s = .next { s with
        oracle := o, log := s.log ++ [.read s.params.ledReg 32 index (.ok k bs)]
        handle := .closed, status := .error .invalidWidth }) ∧
    (∀ k d, (drawRead s.oracle).1 = .ok k d → 4 ≤ k → ∃ v : Word,
      (s.dev.known = false → v = d) ∧
      (s.dev.known = true → s.dev.led &&& reservedMask s.params = 0 → v = s.dev.led) ∧
      (s.dev.known = true → s.dev.led &&& reservedMask s.params ≠ 0 →
        v = (s.dev.led &&& fieldMask s.params) ||| (d &&& reservedMask s.params)) ∧
      exec .dsRead s = .next { s with
        oracle := o
        log := s.log ++ [.read s.params.ledReg 32 index
          (.ok 4 [v.extractLsb' 0 8, v.extractLsb' 8 8, v.extractLsb' 16 8, v.extractLsb' 24 8])]
        res := some (.config (decodeConfig s.params v)), pc := s.pc + 1 })

/-- R185, R56, R171, R172: DS_WRITE of a configuration that LED_ENCODE accepts (R142), for every answer of the
transport: the word that LED_ENCODE gives is what is written. -/
def Obligations.DsWriteOutcomes : Prop :=
  ∀ (a : Arg LedConfiguration) (c : LedConfiguration) (s : State), DenotesConfig a s c →
    (∃ pattern, pattern < 16 ∧ bdEntry s.params pattern = some (c.blinkInterval, c.dutyPermille)) →
    (s.params.has2500m = false → ∀ i : Fin 3, (c.leds.get i).link2500 = false) →
    let o := (drawWrite s.oracle).2
    ∃ raw : Word, exec (.ledEncode a) s = .next { s with res := some (.u32 raw), pc := s.pc + 1 } ∧
      let event := Event.write s.params.ledReg 32 (indexField s.params 32)
        [raw.extractLsb' 0 8, raw.extractLsb' 8 8, raw.extractLsb' 16 8, raw.extractLsb' 24 8]
      (∀ f, (drawWrite s.oracle).1 = .err f →
        exec (.dsWrite a) s = .next { s with
          oracle := o, dev := { s.dev with known := false }, log := s.log ++ [event (.err f)]
          handle := .closed, status := .error (faultError f) }) ∧
      (∀ k, (drawWrite s.oracle).1 = .ok k → k < 4 →
        exec (.dsWrite a) s = .next { s with
          oracle := o, dev := { s.dev with known := false }, log := s.log ++ [event (.ok k)]
          handle := .closed, status := .error .transportError }) ∧
      (∀ k, (drawWrite s.oracle).1 = .ok k → 4 ≤ k →
        exec (.dsWrite a) s = .next { s with
          oracle := o, dev := ⟨raw, true⟩, log := s.log ++ [event (.ok 4)], res := some .unit, pc := s.pc + 1 })

/-- R185, R241: DS_WRITE of a configuration that LED_ENCODE rejects gives UnsupportedConfiguration and makes no transfer:
no event, no draw, no change of the device. -/
def Obligations.DsWriteRejectsBeforeTransfer : Prop :=
  ∀ (a : Arg LedConfiguration) (c : LedConfiguration) (s : State), DenotesConfig a s c →
    ((∀ pattern, pattern < 16 → bdEntry s.params pattern ≠ some (c.blinkInterval, c.dutyPermille)) ∨
      s.params.has2500m = false ∧ ∃ i : Fin 3, (c.leds.get i).link2500 = true) →
    exec (.dsWrite a) s = .next { s with handle := .closed, status := .error .unsupportedConfiguration }

/-- R190, R195, R205, R53, R50: the checks of the raw operations, in their order, all before any transfer; the value check
of DS_WRITE_RAW comes last. -/
def Obligations.RawAccessChecksComeFirst : Prop :=
  ∀ (off w : Nat) (a : Arg Word) (v : Word) (s : State), DenotesU32 a s v →
    let stop (st : Status) : State := { s with handle := .closed, status := st }
    (w ∉ [8, 16, 32] →
      exec (.dsReadRaw (.lit off) (.lit w)) s = .next (stop (.error .unsupportedWidth)) ∧
      exec (.dsWriteRaw (.lit off) (.lit w) a) s = .next (stop (.error .unsupportedWidth))) ∧
    (w ∈ [8, 16, 32] → 2 ^ s.params.offsetBits ≤ off →
      exec (.dsReadRaw (.lit off) (.lit w)) s = .next (stop (.refused .offsetRange)) ∧
      exec (.dsWriteRaw (.lit off) (.lit w) a) s = .next (stop (.refused .offsetRange))) ∧
    (w ∈ [8, 16, 32] → off < 2 ^ s.params.offsetBits → off % (w / 8) ≠ 0 →
      exec (.dsReadRaw (.lit off) (.lit w)) s = .next (stop (.refused .misaligned)) ∧
      exec (.dsWriteRaw (.lit off) (.lit w) a) s = .next (stop (.refused .misaligned))) ∧
    (w ∈ [8, 16, 32] → off < 2 ^ s.params.offsetBits → off % (w / 8) = 0 → 2 ^ w ≤ v.toNat →
      exec (.dsWriteRaw (.lit off) (.lit w) a) s = .next (stop (.refused .valueTooWide)))

/-- R190, R55, R57, R171, R172: DS_READ_RAW of an admitted access, for every answer of the transport. A complete 32-bit
read at `LED_REG` gives the value of R55; any other read gives the draw. -/
def Obligations.DsReadRawOutcomes : Prop :=
  ∀ (off w : Nat) (s : State), w ∈ [8, 16, 32] → off < 2 ^ s.params.offsetBits → off % (w / 8) = 0 →
    let o := (drawRead s.oracle).2
    let index := indexField s.params w
    (∀ f, (drawRead s.oracle).1 = .err f →
      exec (.dsReadRaw (.lit off) (.lit w)) s = .next { s with
        oracle := o, log := s.log ++ [.read off w index (.err f)]
        handle := .closed, status := .error (faultError f) }) ∧
    (∀ k d, (drawRead s.oracle).1 = .ok k d → k < w / 8 → ∃ bs : List Byte, bs.length = k ∧
      exec (.dsReadRaw (.lit off) (.lit w)) s = .next { s with
        oracle := o, log := s.log ++ [.read off w index (.ok k bs)]
        handle := .closed, status := .error .invalidWidth }) ∧
    (∀ k d, (drawRead s.oracle).1 = .ok k d → w / 8 ≤ k → ∃ (bs : List Byte) (v : Word),
      bs.length = w / 8 ∧ (∀ j, j < w / 8 → bs[j]? = some (BitVec.ofNat 8 (v.toNat / 2 ^ (8 * j)))) ∧ v.toNat < 2 ^ w ∧
      (¬ (off = s.params.ledReg ∧ w = 32) → v.toNat = d.toNat % 2 ^ w) ∧
      (off = s.params.ledReg → w = 32 → s.dev.known = false → v = d) ∧
      (off = s.params.ledReg → w = 32 → s.dev.known = true → s.dev.led &&& reservedMask s.params = 0 → v = s.dev.led) ∧
      (off = s.params.ledReg → w = 32 → s.dev.known = true → s.dev.led &&& reservedMask s.params ≠ 0 →
        v = (s.dev.led &&& fieldMask s.params) ||| (d &&& reservedMask s.params)) ∧
      exec (.dsReadRaw (.lit off) (.lit w)) s = .next { s with
        oracle := o, log := s.log ++ [.read off w index (.ok (w / 8) bs)]
        res := some (.u32 v), pc := s.pc + 1 })

/-- R195, R56, R171, R172: DS_WRITE_RAW of an admitted access with a value that fits, for every answer of the transport. -/
def Obligations.DsWriteRawOutcomes : Prop :=
  ∀ (off w : Nat) (a : Arg Word) (v : Word) (s : State), DenotesU32 a s v →
    w ∈ [8, 16, 32] → off < 2 ^ s.params.offsetBits → off % (w / 8) = 0 → v.toNat < 2 ^ w →
    let o := (drawWrite s.oracle).2
    let index := indexField s.params w
    ∃ bs : List Byte, bs.length = w / 8 ∧
      (∀ j, j < w / 8 → bs[j]? = some (BitVec.ofNat 8 (v.toNat / 2 ^ (8 * j)))) ∧
      (∀ f, (drawWrite s.oracle).1 = .err f →
        exec (.dsWriteRaw (.lit off) (.lit w) a) s = .next { s with
          oracle := o, dev := { s.dev with known := false }, log := s.log ++ [.write off w index bs (.err f)]
          handle := .closed, status := .error (faultError f) }) ∧
      (∀ k, (drawWrite s.oracle).1 = .ok k → k < w / 8 →
        exec (.dsWriteRaw (.lit off) (.lit w) a) s = .next { s with
          oracle := o, dev := { s.dev with known := false }, log := s.log ++ [.write off w index bs (.ok k)]
          handle := .closed, status := .error .transportError }) ∧
      (∀ k, (drawWrite s.oracle).1 = .ok k → w / 8 ≤ k →
        exec (.dsWriteRaw (.lit off) (.lit w) a) s = .next { s with
          oracle := o
          dev := if off = s.params.ledReg ∧ w = 32 then ⟨v, true⟩ else { s.dev with known := false }
          log := s.log ++ [.write off w index bs (.ok (w / 8))], res := some .unit, pc := s.pc + 1 })

/-- R197: after a DS_WRITE that ended Ok, a clean DS_READ with the device as that write left it gives the configuration
that was written. -/
def Obligations.ReadAfterWriteGivesConfiguration : Prop :=
  ∀ (s t u : State) (c : LedConfiguration) (k : Nat) (d : Word), paramsOk s.params = true →
    s.status = .running → exec (.dsWrite (.lit c)) s = .next t → t.status = .running →
    u.params = s.params → u.dev = t.dev → (drawRead u.oracle).1 = .ok k d → 4 ≤ k →
    ∃ v, exec .dsRead u = .next v ∧ v.res = some (.config c) ∧ v.pc = u.pc + 1 ∧ v.dev = u.dev

/-- R198: after a 32-bit DS_WRITE_RAW at `LED_REG` that ended Ok, a clean 32-bit DS_READ_RAW there gives the field bits as
written, and the whole value when its reserved bits were 0. -/
def Obligations.RawReadAfterRawWriteKeepsFieldBits : Prop :=
  ∀ (s t u : State) (x : Word) (k : Nat) (d : Word), paramsOk s.params = true →
    s.status = .running → exec (.dsWriteRaw (.lit s.params.ledReg) (.lit 32) (.lit x)) s = .next t →
    t.status = .running → u.params = s.params → u.dev = t.dev → (drawRead u.oracle).1 = .ok k d → 4 ≤ k →
    ∃ (v : State) (y : Word), exec (.dsReadRaw (.lit u.params.ledReg) (.lit 32)) u = .next v ∧ v.res = some (.u32 y) ∧
      y &&& fieldMask s.params = x &&& fieldMask s.params ∧
      (x &&& reservedMask s.params = 0 → y = x)

/-- R174: the register index field: its formula, the 32-bit mask's value under the default, and its low byte for the
three widths when bits 7:0 of `PLA_BASE` are 0. -/
def Obligations.IndexFieldFormula : Prop :=
  (defaultParams.byteMask32 = 0xF ∧ defaultParams.byteMask16 = 0x3 ∧ defaultParams.byteMask8 = 0x1) ∧
  ∀ p : Params, p.byteMask32 = 0xF → p.byteMask16 = 0x3 → p.byteMask8 = 0x1 →
    indexField p 32 = p.plaBase ||| 0xF <<< 4 ||| 0xF ∧
    indexField p 16 = p.plaBase ||| 0x3 <<< 4 ||| 0x3 ∧
    indexField p 8 = p.plaBase ||| 0x1 <<< 4 ||| 0x1 ∧
    (p.plaBase % 256 = 0 →
      indexField p 32 % 256 = 0xFF ∧ indexField p 16 % 256 = 0x33 ∧ indexField p 8 % 256 = 0x11)

/-! ### Every operation -/

/-- R80, R203, R208: a reserved selector is refused with IllegalOperation; nothing is computed or transferred. -/
def Obligations.ReservedSelectorRefused : Prop :=
  ∀ (op : BitVec 4) (operands : List OperandVal) (s : State),
    exec (.reserved op operands) s = .next { s with handle := .closed, status := .refused .illegalOperation }

/-- R23, R203: an operand `res` that is absent or of the wrong type is refused with OperandType, and nothing is computed
or transferred; no result has the type of a width or an offset (LOG 12). -/
def Obligations.WrongOperandTypeRefused : Prop :=
  ∀ (s : State) (w off : Arg Nat) (x : Arg Word) (y : Arg (List Byte)),
    let refused := Host.Outcome.next { s with handle := .closed, status := .refused .operandType }
    ((∀ v, s.res ≠ some (.u32 v)) →
      exec (.pack .res w) s = refused ∧ exec (.ledDecode .res) s = refused ∧ exec (.dsWriteRaw off w .res) s = refused) ∧
    ((∀ bs, s.res ≠ some (.bytes bs)) → exec (.unpack .res w) s = refused) ∧
    ((∀ c, s.res ≠ some (.config c)) → exec (.ledEncode .res) s = refused ∧ exec (.dsWrite .res) s = refused) ∧
    (exec (.pack x .res) s = refused ∧ exec (.unpack y .res) s = refused ∧
      exec (.dsReadRaw .res w) s = refused ∧ exec (.dsReadRaw off .res) s = refused ∧
      exec (.dsWriteRaw .res w x) s = refused ∧ exec (.dsWriteRaw off .res x) s = refused)

/-- R10, R23, R208: every operation, in every state, ends in one of the three outcomes: Ok keeps a result and advances
pc; an error or a refusal sets the status, releases the handle and leaves pc and res as they were. -/
def Obligations.OperationsEndInThreeOutcomes : Prop :=
  ∀ (i : Instr) (s : State), ∃ t, exec i s = .next t ∧
    ((∃ v, t.res = some v) ∧ t.pc = s.pc + 1 ∧ t.status = s.status ∧ t.handle = s.handle ∨
      (∃ e, t.status = .error e) ∧ t.handle = .closed ∧ t.pc = s.pc ∧ t.res = s.res ∨
      (∃ q, t.status = .refused q) ∧ t.handle = .closed ∧ t.pc = s.pc ∧ t.res = s.res)

/-- R20, R22: no operation writes the parameters, the program, the selector or the outside world's events. -/
def Obligations.OperationsKeepParametersAndProgram : Prop :=
  ∀ (i : Instr) (s t : State), exec i s = .next t →
    t.params = s.params ∧ t.prog = s.prog ∧ t.selector = s.selector ∧ t.inputs = s.inputs ∧ t.cutOff = s.cutOff

/-- R50, R72, R208: an operation whose selector has `op[2] = 0`, or that is reserved, reaches no device: the device, the
log and the transport are as before. -/
def Obligations.CodecOperationsReachNoDevice : Prop :=
  ∀ (i : Instr) (s t : State), i.wellFormed = true →
    ((encode i).op.getLsbD 2 = false ∨ (encode i).op.getLsbD 3 = true) → exec i s = .next t →
    t.dev = s.dev ∧ t.log = s.log ∧ t.oracle = s.oracle

/-- R58, R59, R172, R243: an operation makes at most one transfer, with one event, and a refused one makes none. -/
def Obligations.OneTransferPerOperation : Prop :=
  ∀ (i : Instr) (s t : State), s.status = .running → exec i s = .next t →
    t.log = s.log ∧ t.oracle = s.oracle ∧ t.dev = s.dev ∨
    ∃ ev, isTransfer ev = true ∧ t.log = s.log ++ [ev] ∧ ∀ q, t.status ≠ .refused q

/-- R56: the device after an operation, by the event it logged: a complete 32-bit write at `LED_REG` stores the value of
its bytes, every other write makes the LED register unknown, and without a write nothing changes. -/
def Obligations.DeviceFollowsWrites : Prop :=
  ∀ (i : Instr) (s t : State), exec i s = .next t →
    ((∀ ev, t.log = s.log ++ [ev] → isWrite ev = false) → t.dev = s.dev) ∧
    (∀ ev, t.log = s.log ++ [ev] → isWrite ev = true → isCompleteLedWrite s.params ev = false →
      t.dev = { s.dev with known := false }) ∧
    (∀ off w index bs o, t.log = s.log ++ [.write off w index bs o] →
      isCompleteLedWrite s.params (.write off w index bs o) = true →
      t.dev.known = true ∧ bs = leBytes 4 t.dev.led)

/-- R59: a repeated identical 32-bit write at `LED_REG` leaves the same device state as one write. -/
def Obligations.RepeatedWriteIsIdempotent : Prop :=
  ∀ (s t u v : State) (x : Word), s.status = .running →
    exec (.dsWriteRaw (.lit s.params.ledReg) (.lit 32) (.lit x)) s = .next t → t.status = .running →
    u.params = s.params → u.dev = t.dev → u.status = .running →
    exec (.dsWriteRaw (.lit s.params.ledReg) (.lit 32) (.lit x)) u = .next v → v.status = .running →
    v.dev = t.dev

/-- R200, R203: an operation raises only the errors and ends only in the refusals of its rows in the two tables, and the
errors have the codes 1 to 7. -/
def Obligations.ErrorsAndRefusalsByTable : Prop :=
  (∀ (i : Instr) (s t : State), s.status = .running → exec i s = .next t →
    (∀ e, t.status = .error e → e ∈ mayRaise i) ∧ (∀ q, t.status = .refused q → q ∈ mayRefuse i)) ∧
  [Error.deviceNotFound, .multipleMatches, .transportTimeout, .transportError, .unsupportedWidth, .invalidWidth,
    .unsupportedConfiguration].map errorCode = [1, 2, 3, 4, 5, 6, 7]

/-! ### The harness (R22, R23, R207, R209, R220, R230 to R246) -/

/-- R23: with the handle open, a step of a Running state runs the operation that the descriptor at pc decodes to, and
nothing else. -/
def Obligations.StepRunsDecodedOperation : Prop :=
  ∀ (s : State) (d : Descriptor) (i : Instr), s.inputs = [] → s.cutOff = false → s.status = .running →
    paramsOk s.params = true → s.handle = .opened → s.prog[s.pc]? = some d → decode d = .ok i → step s = exec i s

/-- R23, R173: with the handle closed, the same step first opens the device: a handle lets the operation run, a failed
open ends the run with its error; either way the open is logged. -/
def Obligations.PrologueOpensDevice : Prop :=
  ∀ (s : State) (o : OpenOutcome), s.inputs = [] → s.cutOff = false → s.status = .running → paramsOk s.params = true →
    s.handle = .closed → openOutcome s.selector (drawOpen s.oracle).1 = o →
    let u := { s with oracle := (drawOpen s.oracle).2, log := s.log ++ [Event.opening s.selector o] }
    (∀ bus address, s.selector = .busAddress bus address → o ≠ .multipleMatches) ∧
    (o = .handle → step s = step { u with handle := .opened }) ∧
    (o = .deviceNotFound → step s = .next { u with status := .error .deviceNotFound }) ∧
    (o = .multipleMatches → step s = .next { u with status := .error .multipleMatches })

/-- R23: with no operation left, a step ends the run: status Done and the handle released. -/
def Obligations.RunEndsAfterLastOperation : Prop :=
  ∀ s : State, s.inputs = [] → s.cutOff = false → s.status = .running → paramsOk s.params = true → s.handle = .opened →
    s.pc = s.prog.length → step s = .next { s with handle := .closed, status := .done }

/-- R23, R202, R207, R209: no step is taken in a state whose status is not Running, nor in a run that was cut off: nothing
is retried, and only an outside event can move the machine on. -/
def Obligations.NoStepAfterTheRun : Prop :=
  ∀ s : State, s.inputs = [] →
    (s.status ≠ .running → step s = .fault .runEnded) ∧
    (s.status = .running → s.cutOff = true → step s = .fault .terminated)

/-- R7, R203: parameters that are not well-formed are refused with BadParams before the device is opened. -/
def Obligations.BadParamsRefused : Prop :=
  ∀ s : State, s.inputs = [] → s.cutOff = false → s.status = .running → paramsOk s.params = false →
    step s = .next { s with handle := .closed, status := .refused .badParams }

/-- R207, R209, R220, R231: what an outside event does at a step boundary. A power cycle makes the LED register unknown
and changes nothing else of the run; a new invocation starts from the harness state of R231 with the device carried over;
a termination cuts the run off, its status and the device unchanged (LOG 20); where no event is due the harness takes its step. -/
def Obligations.OutsideEventsAtBoundaries : Prop :=
  ∀ (s : State) (rest : List Input),
    (s.inputs = .powerCycle :: rest →
      step s = .next { s with inputs := rest, dev := { s.dev with known := false } }) ∧
    (∀ selector prog, s.inputs = .invoke selector prog :: rest →
      step s = .next { s with
        inputs := rest, prog := prog, selector := selector, pc := 0, res := none, status := .running
        handle := .closed, log := [], cutOff := false }) ∧
    (s.inputs = .terminate :: rest → step s = .next { s with inputs := rest, cutOff := true }) ∧
    (s.inputs = .quiet :: rest → step s = harnessStep { s with inputs := rest }) ∧
    (s.inputs = [] → step s = harnessStep s)

/-- R231, R232: the machine after power-on. -/
def Obligations.ResetState : Prop :=
  State.reset.pc = 0 ∧ State.reset.res = none ∧ State.reset.status = .running ∧ State.reset.handle = .closed ∧
    State.reset.log = [] ∧ State.reset.dev.known = false

/-- The reset state is consistent and its parameters are well-formed. -/
def Obligations.ResetConsistent : Prop := Consistent State.reset ∧ paramsOk State.reset.params = true

/-- Every step from a consistent state, whatever the outside world does, gives a consistent state. -/
def Obligations.StepKeepsConsistent : Prop :=
  ∀ s t : State, Consistent s → step s = .next t → Consistent t

/-- R20, R230: the parameters never change: no step writes them. -/
def Obligations.StepKeepsParams : Prop :=
  ∀ s t : State, step s = .next t → t.params = s.params

/-- R246: without outside events, a run of a program whose descriptors decode ends after at most one step for each
operation left and one more. -/
def Obligations.RunsEnd : Prop :=
  ∀ s : State, s.inputs = [] → s.cutOff = false → s.status = .running → s.pc ≤ s.prog.length →
    (∀ d ∈ s.prog, ∃ i, decode d = .ok i) →
    ∃ (n : Nat) (t : State), n ≤ s.prog.length - s.pc + 1 ∧ Host.Core.run Sys2Proof.core n s = .next t ∧ t.status ≠ .running

/-- R92, R234: the commands expand to the operations of their rows, and `set` with no flags writes the example
configuration. -/
def Obligations.CommandsExpand : Prop :=
  ∀ (p : Params) (c : LedConfiguration) (off w : Nat) (v : Word),
    commandProgram p .showConfig = [⟨0x4, []⟩] ∧
    commandProgram p (.setConfig c) = [⟨0x5, [.config c]⟩, ⟨0x4, []⟩] ∧
    commandProgram p (.regRead off w) = [⟨0x6, [.offset off, .width w]⟩] ∧
    commandProgram p (.regWrite off w v) = [⟨0x7, [.offset off, .width w, .u32 v]⟩] ∧
    (paramsOk p = true → commandProgram p .setDefault = [⟨0x5, [.config exampleConfig]⟩, ⟨0x4, []⟩])

/-- R90: lines of the harness assembly and the descriptors they stand for. -/
def Obligations.AssemblyLines : Prop :=
  assemble ["LED_ENCODE cfg(10M+100M+1000M, ACT, -, LSD, 500)", "PACK res, 32", "UNPACK res, 32", "x: LED_DECODE res ; end"] =
    some [⟨0x3, [.config exampleConfig]⟩, ⟨0x0, [.res, .width 32]⟩, ⟨0x1, [.res, .width 32]⟩, ⟨0x2, [.res]⟩] ∧
  assemble ["DS_WRITE_RAW 0xdd90, 32, 0x000e0087", "UNPACK [87 00 0E 00], 32", "DS_READ"] =
    some [⟨0x7, [.offset 0xdd90, .width 32, .u32 0x000e0087]⟩, ⟨0x1, [.bytes [0x87, 0x00, 0x0E, 0x00], .width 32]⟩, ⟨0x4, []⟩] ∧
  assemble ["DS_READ 0xdd90"] = none
end

