-- ==== Sys2Proof/Laws/Layout.lean ====
section
/-! SUPPORT. The bits of the words that the layout's operations build, and the two directions of the blink/duty table. -/

namespace Sys2Proof.Machine

/-- A statement for every LED index is its three instances. -/
theorem forall_fin3 {P : Fin 3 → Prop} : (∀ i, P i) ↔ P 0 ∧ P 1 ∧ P 2 :=
  ⟨fun h => ⟨h 0, h 1, h 2⟩, fun h i => by
    obtain ⟨h0, h1, h2⟩ := h
    fin_cases i
    · exact h0
    · exact h1
    · exact h2⟩

@[simp] theorem get_zero {α : Type} (t : Triple α) : t.get 0 = t.i0 := rfl
@[simp] theorem get_one {α : Type} (t : Triple α) : t.get 1 = t.i1 := rfl
@[simp] theorem get_two {α : Type} (t : Triple α) : t.get 2 = t.i2 := rfl

/-! ### Bits of the building blocks -/

@[simp] theorem getLsbD_bitAt (b : Bool) (k j : Nat) : (bitAt b k).getLsbD j = (b && decide (j = k) && decide (j < 32)) := by
  unfold bitAt
  rw [BitVec.getLsbD_shiftLeft, BitVec.getLsbD_setWidth, BitVec.getLsbD_ofBool]
  by_cases h : j = k
  · subst h; cases b <;> simp
  · by_cases h2 : j < k
    · simp [h, h2]
    · have : ¬ (j - k = 0) := by omega
      simp [h, this]

@[simp] theorem getLsbD_maskAt (lo n j : Nat) :
    (maskAt lo n).getLsbD j = (decide (lo ≤ j) && decide (j < lo + n) && decide (j < 32)) := by
  unfold maskAt
  rw [BitVec.getLsbD_shiftLeft, BitVec.getLsbD_ofNat, Nat.testBit_two_pow_sub_one]
  by_cases h : j < lo
  · simp [h]
  · have h1 : lo ≤ j := by omega
    by_cases h2 : j < 32
    · have h3 : j - lo < 32 := by omega
      have h4 : (j - lo < n) = (j < lo + n) := by simp only [eq_iff_iff]; omega
      simp [h, h1, h2, h3, h4]
    · simp [h2]

/-- The bits of a nibble are the four triggers' (R140). -/
theorem getLsbD_triggerNibble (p : Params) (s : LedSetting) (j : Nat) :
    (triggerNibble p s).getLsbD j =
      ((s.link10 && decide (j = p.bit10m) || s.link100 && decide (j = p.bit100m) || s.link1000 && decide (j = p.bit1000m)
        || blinksOnActivity s && decide (j = p.bitAct)) && decide (j < 32)) := by
  simp only [triggerNibble, BitVec.getLsbD_or, getLsbD_bitAt, Bool.and_or_distrib_right]

/-- R140: the bits one LED's setting contributes. -/
theorem getLsbD_encodeLed (p : Params) (i : Fin 3) (s : LedSetting) (j : Nat) (hj : j < 32) :
    (encodeLed p i s).getLsbD j =
      (decide (p.nibOff.get i ≤ j) && (triggerNibble p s).getLsbD (j - p.nibOff.get i)
        || s.link2500 && decide (j = p.bit2500m.get i) || s.activeLow && decide (j = p.bitAlow.get i)) := by
  simp only [encodeLed, BitVec.getLsbD_or, BitVec.getLsbD_shiftLeft, getLsbD_bitAt, hj, decide_true, Bool.and_true,
    Bool.true_and]
  congr 3
  by_cases h : j < p.nibOff.get i <;> (simp [h]; try omega)

/-! ### What well-formed parameters give -/

/-- R7 as arithmetic: the positions of a well-formed `Params`. -/
structure Placed (p : Params) : Prop where
  nib : ∀ i : Fin 3, p.nibOff.get i + 3 ≤ 15
  b2500 : ∀ i : Fin 3, 16 ≤ p.bit2500m.get i ∧ p.bit2500m.get i ≤ 31
  alow : ∀ i : Fin 3, p.bitAlow.get i ≤ 31
  bdLo : 16 ≤ p.bdLo
  bdHi : p.bdHi = p.bdLo + 3
  bdTop : p.bdHi ≤ 31
  nib_nib : ∀ i j : Fin 3, i ≠ j → p.nibOff.get i + 4 ≤ p.nibOff.get j ∨ p.nibOff.get j + 4 ≤ p.nibOff.get i
  nib_alow : ∀ i j : Fin 3, p.bitAlow.get j < p.nibOff.get i ∨ p.nibOff.get i + 4 ≤ p.bitAlow.get j
  b2500_b2500 : ∀ i j : Fin 3, i ≠ j → p.bit2500m.get i ≠ p.bit2500m.get j
  b2500_alow : ∀ i j : Fin 3, p.bit2500m.get i ≠ p.bitAlow.get j
  alow_alow : ∀ i j : Fin 3, i ≠ j → p.bitAlow.get i ≠ p.bitAlow.get j
  b2500_bd : ∀ i : Fin 3, p.bit2500m.get i < p.bdLo ∨ p.bdLo + 4 ≤ p.bit2500m.get i
  alow_bd : ∀ i : Fin 3, p.bitAlow.get i < p.bdLo ∨ p.bdLo + 4 ≤ p.bitAlow.get i
  bits : p.bit10m ≤ 3 ∧ p.bit100m ≤ 3 ∧ p.bit1000m ≤ 3 ∧ p.bitAct ≤ 3
  distinct : p.bit10m ≠ p.bit100m ∧ p.bit10m ≠ p.bit1000m ∧ p.bit10m ≠ p.bitAct ∧ p.bit100m ≠ p.bit1000m ∧
    p.bit100m ≠ p.bitAct ∧ p.bit1000m ≠ p.bitAct

/-- Two one-bit fields that share no bit are at different bits. -/
theorem ne_of_apart {a b : Nat} (h : a + 1 ≤ b ∨ b + 1 ≤ a) : ¬ a = b := by omega

/-- R7 conditions 1 to 5. -/
theorem placed_of_paramsOk {p : Params} (h : paramsOk p = true) : Placed p := by
  obtain ⟨⟨n0, n1, n2⟩, t10, t100, t1000, ta, ⟨g0, g1, g2⟩, ⟨a0, a1, a2⟩, lo, hi⟩ := p
  simp only [paramsOk, Bool.and_eq_true] at h
  obtain ⟨⟨⟨⟨⟨⟨⟨⟨h1, h2⟩, h3⟩, h4⟩, h5⟩, h6⟩, -⟩, -⟩, -⟩ := h
  unfold fieldsDisjoint at h5
  replace h5 := of_decide_eq_true h5
  simp only [nibblesLow, bits2500mHigh, bitsAlowInside, bdFieldHigh, fieldRanges, apart, triggerBitsDistinct,
    Triple.toList, List.all_cons, List.all_nil, List.map_cons, List.map_nil, List.cons_append, List.nil_append,
    List.pairwise_cons, List.mem_cons, List.not_mem_nil, forall_eq_or_imp, List.nodup_cons, Bool.and_eq_true,
    decide_eq_true_eq, Bool.decide_and, Bool.decide_or, Bool.or_eq_true, or_false, not_or, forall_eq, and_true,
    false_implies, implies_true, List.Pairwise.nil, List.nodup_nil, not_false_eq_true] at h1 h2 h3 h4 h5 h6
  simp only [and_assoc] at h1 h2 h3 h4 h5 h6
  constructor <;> simp only [forall_fin3, get_zero, get_one, get_two, ne_eq, Fin.isValue, Fin.reduceEq, not_true_eq_false,
    not_false_eq_true, false_implies, forall_const, true_and, and_true]
  all_goals casesm* _ ∧ _
  all_goals repeat' apply And.intro
  all_goals first
    | assumption
    | exact Or.symm ‹_›
    | exact ne_of_apart ‹_›
    | exact Ne.symm (ne_of_apart ‹_›)

/-! ### Masks -/

/-- R24, R29: bit `j` belongs to a field of the variant. -/
def InField (p : Params) (j : Nat) : Prop :=
  (∃ i : Fin 3, p.nibOff.get i ≤ j ∧ j < p.nibOff.get i + 4) ∨ (p.bdLo ≤ j ∧ j < p.bdLo + 4) ∨
    (∃ i : Fin 3, j = p.bitAlow.get i) ∨ (p.has2500m = true ∧ ∃ i : Fin 3, j = p.bit2500m.get i)

theorem exists_fin3 {P : Fin 3 → Prop} : (∃ i, P i) ↔ P 0 ∨ P 1 ∨ P 2 := by
  constructor
  · rintro ⟨i, hi⟩
    fin_cases i
    · exact .inl hi
    · exact .inr (.inl hi)
    · exact .inr (.inr hi)
  · rintro (h | h | h)
    · exact ⟨0, h⟩
    · exact ⟨1, h⟩
    · exact ⟨2, h⟩

/-- R29: the bits of `FIELD_MASK`. -/
theorem getLsbD_fieldMask {p : Params} (h : Placed p) (j : Nat) :
    (fieldMask p).getLsbD j = true ↔ j < 32 ∧ InField p j := by
  have hw : p.bdHi + 1 - p.bdLo = 4 := by have := h.bdHi; omega
  by_cases hj : j < 32 <;>
    simp only [fieldMask, nibbleMask, hw, BitVec.getLsbD_or, getLsbD_maskAt, getLsbD_bitAt, Bool.or_eq_true,
      Bool.and_eq_true, decide_eq_true_eq, InField, exists_fin3, hj, and_true, true_and, and_false, false_and, or_false,
      or_assoc, and_or_left]

/-- R29: a bit below 32 is reserved exactly when it is no field's. -/
theorem getLsbD_reservedMask (p : Params) (j : Nat) :
    (reservedMask p).getLsbD j = (decide (j < 32) && !(fieldMask p).getLsbD j) := by
  simp [reservedMask, BitVec.getLsbD_not]

/-- A word that meets no reserved bit has each of them 0. -/
theorem getLsbD_eq_false_of_and_reserved {p : Params} {raw : Word} (h : raw &&& reservedMask p = 0) {j : Nat}
    (hj : (fieldMask p).getLsbD j = false) : raw.getLsbD j = false := by
  by_cases h32 : j < 32
  · have h1 : (raw &&& reservedMask p).getLsbD j = false := by rw [h]; exact BitVec.getLsbD_zero
    simpa only [BitVec.getLsbD_and, getLsbD_reservedMask, h32, hj, decide_true, Bool.not_false, Bool.and_true] using h1
  · exact BitVec.getLsbD_of_ge _ _ (by omega)

/-- A word whose bits all lie in fields meets no reserved bit. -/
theorem and_reserved_eq_zero {p : Params} {raw : Word}
    (h : ∀ j, raw.getLsbD j = true → (fieldMask p).getLsbD j = true) : raw &&& reservedMask p = 0 := by
  apply BitVec.eq_of_getLsbD_eq
  intro j hj
  rw [BitVec.getLsbD_and, getLsbD_reservedMask]
  cases hr : raw.getLsbD j with
  | false => exact BitVec.getLsbD_zero.symm
  | true => rw [h j hr, Bool.not_true, Bool.and_false]; exact BitVec.getLsbD_zero.symm

/-- A word that meets no reserved bit is its own field bits. -/
theorem and_fieldMask_eq_self {p : Params} {raw : Word} (h : raw &&& reservedMask p = 0) :
    raw &&& fieldMask p = raw := by
  apply BitVec.eq_of_getLsbD_eq
  intro j _
  cases hf : (fieldMask p).getLsbD j with
  | true => simp [hf]
  | false => simp [hf, getLsbD_eq_false_of_and_reserved h hf]

/-- Where a trigger lies, `FIELD_MASK` has its bit (R25). -/
theorem fieldMask_trigger {p : Params} (h : Placed p) (i : Fin 3) {b : Nat} (hb : b ≤ 3) :
    (fieldMask p).getLsbD (p.nibOff.get i + b) = true := by
  have := h.nib i
  exact (getLsbD_fieldMask h _).mpr ⟨by omega, .inl ⟨i, by omega, by omega⟩⟩

/-- Where an active-low flag lies, `FIELD_MASK` has its bit (R27). -/
theorem fieldMask_alow {p : Params} (h : Placed p) (i : Fin 3) : (fieldMask p).getLsbD (p.bitAlow.get i) = true := by
  have := h.alow i
  exact (getLsbD_fieldMask h _).mpr ⟨by omega, .inr (.inr (.inl ⟨i, rfl⟩))⟩

/-- Where a 2500M trigger lies, `FIELD_MASK` has its bit on a variant with the trigger (R26). -/
theorem fieldMask_bit2500m {p : Params} (h : Placed p) (i : Fin 3) (hh : p.has2500m = true) :
    (fieldMask p).getLsbD (p.bit2500m.get i) = true := by
  have := h.b2500 i
  exact (getLsbD_fieldMask h _).mpr ⟨by omega, .inr (.inr (.inr ⟨hh, i, rfl⟩))⟩

/-- Where the pattern lies, `FIELD_MASK` has its bits (R28). -/
theorem fieldMask_bd {p : Params} (h : Placed p) {k : Nat} (hk : k < 4) :
    (fieldMask p).getLsbD (p.bdLo + k) = true := by
  have h1 := h.bdHi
  have h2 := h.bdTop
  exact (getLsbD_fieldMask h _).mpr ⟨by omega, .inr (.inl ⟨by omega, by omega⟩)⟩

/-! ### The blink/duty table -/

/-- R28: the pattern of a word, bit by bit. -/
theorem testBit_bdPattern {p : Params} (h : Placed p) (raw : Word) (k : Nat) :
    (bdPattern p raw).testBit k = (decide (k < 4) && raw.getLsbD (p.bdLo + k)) := by
  have hw : p.bdHi + 1 - p.bdLo = 4 := by have := h.bdHi; omega
  rw [bdPattern, BitVec.testBit_toNat, BitVec.getLsbD_extractLsb', hw]

theorem bdPattern_lt {p : Params} (h : Placed p) (raw : Word) : bdPattern p raw < 16 := by
  have hw : p.bdHi + 1 - p.bdLo = 4 := by have := h.bdHi; omega
  have := (raw.extractLsb' p.bdLo (p.bdHi + 1 - p.bdLo)).isLt
  rw [hw] at this
  simpa [bdPattern, hw] using this

/-- R31: what `BD_INV` gives is a pattern with that entry. -/
theorem bdInv_some {p : Params} {e : Interval × Nat} {pattern : Nat} (h : bdInv p e = some pattern) :
    pattern < 16 ∧ bdEntry p pattern = some e := by
  unfold bdInv at h
  exact ⟨List.mem_range.mp (List.mem_of_find?_eq_some h), by simpa using List.find?_some h⟩

/-- R31: where `BD_INV` is undefined no pattern has that entry. -/
theorem bdInv_none {p : Params} {e : Interval × Nat} :
    bdInv p e = none ↔ ∀ pattern, pattern < 16 → bdEntry p pattern ≠ some e := by
  simp [bdInv, List.find?_eq_none]

/-- Two places of a list with the same defined entry are one place, when the defined entries do not repeat. -/
theorem index_eq_of_filter_nodup {α : Type} [DecidableEq α] {l : List (Option α)} (h : (l.filter Option.isSome).Nodup) {e : α} :
    ∀ {i j : Nat}, l[i]? = some (some e) → l[j]? = some (some e) → i = j := by
  induction l with
  | nil => intro i j hi; simp at hi
  | cons x xs ih =>
    intro i j hi hj
    have hxs : (xs.filter Option.isSome).Nodup := by
      rw [List.filter_cons] at h
      split at h
      · exact (List.nodup_cons.mp h).2
      · exact h
    have hnot (k : Nat) (hx : x = some e) (hk : xs[k]? = some (some e)) : False := by
      subst hx
      rw [List.filter_cons_of_pos rfl, List.nodup_cons] at h
      exact h.1 (List.mem_filter.mpr ⟨List.mem_of_getElem? hk, rfl⟩)
    cases i with
    | zero =>
      cases j with
      | zero => rfl
      | succ j => exact (hnot j (by simpa using hi) (by simpa using hj)).elim
    | succ i =>
      cases j with
      | zero => exact (hnot i (by simpa using hj) (by simpa using hi)).elim
      | succ j => exact congrArg (· + 1) (ih hxs (by simpa using hi) (by simpa using hj))

/-- R7 condition 6: in a table without repeats `BD_INV` gives back the pattern. -/
theorem bdInv_bdEntry {p : Params} (h : paramsOk p = true) {e : Interval × Nat} {pattern : Nat} (hp : pattern < 16)
    (he : bdEntry p pattern = some e) : bdInv p e = some pattern := by
  cases hq : bdInv p e with
  | none => exact absurd he (bdInv_none.mp hq pattern hp)
  | some q =>
    obtain ⟨hq16, hqe⟩ := bdInv_some hq
    simp only [paramsOk, Bool.and_eq_true, bdTableInjective, decide_eq_true_eq] at h
    have get (n : Nat) (hen : bdEntry p n = some e) : p.bdTable[n]? = some (some e) := by
      rw [bdEntry, List.getD_eq_getElem?_getD] at hen
      cases hx : p.bdTable[n]? with
      | none => simp [hx] at hen
      | some x => simpa [hx] using hen
    exact congrArg some (index_eq_of_filter_nodup h.1.1.2.2 (get q hqe) (get pattern he))

/-! ### The encoded word -/

/-- R140: LED i's triggers, as the bit `j` of the word they set. -/
def TriggerAt (p : Params) (i : Fin 3) (s : LedSetting) (j : Nat) : Prop :=
  (s.link10 = true ∧ j = p.nibOff.get i + p.bit10m) ∨ (s.link100 = true ∧ j = p.nibOff.get i + p.bit100m) ∨
    (s.link1000 = true ∧ j = p.nibOff.get i + p.bit1000m) ∨
    (blinksOnActivity s = true ∧ j = p.nibOff.get i + p.bitAct)

/-- R140: the bits one LED's setting sets. -/
theorem getLsbD_encodeLed_iff (p : Params) (i : Fin 3) (s : LedSetting) {j : Nat} (hj : j < 32) :
    (encodeLed p i s).getLsbD j = true ↔
      TriggerAt p i s j ∨ (s.link2500 = true ∧ j = p.bit2500m.get i) ∨ (s.activeLow = true ∧ j = p.bitAlow.get i) := by
  have key (b : Nat) : (p.nibOff.get i ≤ j ∧ j - p.nibOff.get i = b) ↔ j = p.nibOff.get i + b := by omega
  have hlt : j - p.nibOff.get i < 32 := by omega
  rw [getLsbD_encodeLed p i s j hj, getLsbD_triggerNibble]
  simp only [hlt, Bool.or_eq_true, Bool.and_eq_true, decide_eq_true_eq, and_true, TriggerAt, ← key]
  tauto

/-- R140: the bits `LED_ENCODE` sets, field by field. -/
theorem getLsbD_encodeWord_iff (p : Params) (c : LedConfiguration) {pattern j : Nat} (hj : j < 32) :
    (encodeWord p c pattern).getLsbD j = true ↔
      (∃ i : Fin 3, TriggerAt p i (c.leds.get i) j ∨ ((c.leds.get i).link2500 = true ∧ j = p.bit2500m.get i) ∨
        ((c.leds.get i).activeLow = true ∧ j = p.bitAlow.get i)) ∨
      (p.bdLo ≤ j ∧ pattern.testBit (j - p.bdLo) = true) := by
  have hlt : j - p.bdLo < 32 := by omega
  rw [encodeWord, exists_fin3]
  simp only [BitVec.getLsbD_or, Bool.or_eq_true, getLsbD_encodeLed_iff p _ _ hj, BitVec.getLsbD_shiftLeft,
    BitVec.getLsbD_ofNat, hj, hlt, Bool.and_eq_true, decide_true, true_and, Bool.not_eq_true', decide_eq_false_iff_not,
    not_lt, or_assoc]

/-- A pattern has four bits. -/
theorem testBit_pattern_lt {pattern k : Nat} (hp : pattern < 16) (hk : pattern.testBit k = true) : k < 4 := by
  by_contra h
  have : pattern < 2 ^ k := lt_of_lt_of_le hp (by simpa using Nat.pow_le_pow_right (n := 2) (by decide) (not_lt.mp h))
  rw [Nat.testBit_lt_two_pow this] at hk
  exact Bool.false_ne_true hk

/-- R140, R24: on well-formed parameters a bit of LED i's nibble is that trigger's alone. -/
theorem encodeWord_trigger {p : Params} (h : Placed p) (c : LedConfiguration) {pattern : Nat}
    (i : Fin 3) {b : Nat} (hb : b ≤ 3) :
    (encodeWord p c pattern).getLsbD (p.nibOff.get i + b) = true ↔ TriggerAt p i (c.leds.get i) (p.nibOff.get i + b) := by
  have hn := h.nib i
  obtain ⟨hb1, hb2, hb3, hb4⟩ := h.bits
  rw [getLsbD_encodeWord_iff p c (by omega)]
  constructor
  · rintro (⟨k, ht | ⟨-, h5⟩ | ⟨-, h5⟩⟩ | ⟨h5, -⟩)
    · by_cases hk : k = i
      · exact hk ▸ ht
      · have := h.nib_nib k i hk
        rcases ht with ⟨-, ht⟩ | ⟨-, ht⟩ | ⟨-, ht⟩ | ⟨-, ht⟩ <;> omega
    · have := h.b2500 k
      omega
    · have := h.nib_alow i k
      omega
    · have := h.bdLo
      omega
  · exact fun ht => .inl ⟨i, .inl ht⟩

/-- R140, R24: on well-formed parameters LED i's 2500M bit is its trigger's alone. -/
theorem encodeWord_bit2500m {p : Params} (h : Placed p) (c : LedConfiguration) {pattern : Nat} (hp : pattern < 16)
    (i : Fin 3) : (encodeWord p c pattern).getLsbD (p.bit2500m.get i) = (c.leds.get i).link2500 := by
  have hg := h.b2500 i
  obtain ⟨hb1, hb2, hb3, hb4⟩ := h.bits
  rw [Bool.eq_iff_iff, getLsbD_encodeWord_iff p c (by omega)]
  constructor
  · rintro (⟨k, ht | ⟨hs, h5⟩ | ⟨-, h5⟩⟩ | ⟨h5, h6⟩)
    · have := h.nib k
      rcases ht with ⟨-, ht⟩ | ⟨-, ht⟩ | ⟨-, ht⟩ | ⟨-, ht⟩ <;> omega
    · by_cases hk : k = i
      · exact hk ▸ hs
      · exact absurd h5.symm (h.b2500_b2500 k i hk)
    · exact absurd h5 (h.b2500_alow i k)
    · have := h.b2500_bd i
      have := testBit_pattern_lt hp h6
      omega
  · exact fun hs => .inl ⟨i, .inr (.inl ⟨hs, rfl⟩)⟩

/-- R140, R24: on well-formed parameters LED i's active-low bit is its flag's alone. -/
theorem encodeWord_alow {p : Params} (h : Placed p) (c : LedConfiguration) {pattern : Nat} (hp : pattern < 16)
    (i : Fin 3) : (encodeWord p c pattern).getLsbD (p.bitAlow.get i) = (c.leds.get i).activeLow := by
  have hg := h.alow i
  obtain ⟨hb1, hb2, hb3, hb4⟩ := h.bits
  rw [Bool.eq_iff_iff, getLsbD_encodeWord_iff p c (by omega)]
  constructor
  · rintro (⟨k, ht | ⟨-, h5⟩ | ⟨hs, h5⟩⟩ | ⟨h5, h6⟩)
    · have := h.nib_alow k i
      rcases ht with ⟨-, ht⟩ | ⟨-, ht⟩ | ⟨-, ht⟩ | ⟨-, ht⟩ <;> omega
    · exact absurd h5.symm (h.b2500_alow k i)
    · by_cases hk : k = i
      · exact hk ▸ hs
      · exact absurd h5.symm (h.alow_alow k i hk)
    · have := h.alow_bd i
      have := testBit_pattern_lt hp h6
      omega
  · exact fun hs => .inl ⟨i, .inr (.inr ⟨hs, rfl⟩)⟩

/-- R140, R24: on well-formed parameters the blink/duty field is the pattern alone. -/
theorem encodeWord_bd {p : Params} (h : Placed p) (c : LedConfiguration) {pattern : Nat}
    {k : Nat} (hk : k < 4) : (encodeWord p c pattern).getLsbD (p.bdLo + k) = pattern.testBit k := by
  have h1 := h.bdHi
  have h2 := h.bdTop
  have h3 := h.bdLo
  obtain ⟨hb1, hb2, hb3, hb4⟩ := h.bits
  rw [Bool.eq_iff_iff, getLsbD_encodeWord_iff p c (by omega)]
  constructor
  · rintro (⟨i, ht | ⟨-, h5⟩ | ⟨-, h5⟩⟩ | ⟨-, h6⟩)
    · have := h.nib i
      rcases ht with ⟨-, ht⟩ | ⟨-, ht⟩ | ⟨-, ht⟩ | ⟨-, ht⟩ <;> omega
    · have := h.b2500_bd i
      omega
    · have := h.alow_bd i
      omega
    · simpa using h6
  · exact fun hs => .inr ⟨by omega, by simpa using hs⟩

/-- R28, R140: the pattern that an encoded word carries. -/
theorem bdPattern_encodeWord {p : Params} (h : Placed p) (c : LedConfiguration) {pattern : Nat} (hp : pattern < 16) :
    bdPattern p (encodeWord p c pattern) = pattern := by
  apply Nat.eq_of_testBit_eq
  intro k
  rw [testBit_bdPattern h]
  by_cases hk : k < 4
  · simp only [hk, decide_true, Bool.true_and, encodeWord_bd h c hk]
  · cases hb : pattern.testBit k with
    | false => simp only [hk, decide_false, Bool.false_and]
    | true => exact absurd (testBit_pattern_lt hp hb) hk

/-- R25: LED i's four triggers, read back from an encoded word. -/
theorem decodeLed_encodeWord {p : Params} (h : Placed p) (c : LedConfiguration) {pattern : Nat} (hp : pattern < 16)
    (i : Fin 3) (hh : p.has2500m = true ∨ (c.leds.get i).link2500 = false) :
    decodeLed p (encodeWord p c pattern) i = c.leds.get i := by
  obtain ⟨hb1, hb2, hb3, hb4⟩ := h.bits
  obtain ⟨d1, d2, d3, d4, d5, d6⟩ := h.distinct
  have t1 := encodeWord_trigger (pattern := pattern) h c i hb1
  have t2 := encodeWord_trigger (pattern := pattern) h c i hb2
  have t3 := encodeWord_trigger (pattern := pattern) h c i hb3
  have t4 := encodeWord_trigger (pattern := pattern) h c i hb4
  simp only [TriggerAt, Nat.add_left_cancel_iff, d1, d2, d3, d4, d5, d6, Ne.symm d1, Ne.symm d2, Ne.symm d3, Ne.symm d4,
    Ne.symm d5, Ne.symm d6, and_true, and_false, or_false, false_or, ← Bool.eq_iff_iff] at t1 t2 t3 t4
  have t5 := encodeWord_bit2500m h c hp i
  have t6 := encodeWord_alow h c hp i
  unfold decodeLed
  simp only [t1, t2, t3, t4, t5, t6]
  generalize c.leds.get i = s at hh ⊢
  obtain ⟨l1, l2, l3, l4, act, low⟩ := s
  cases act <;> rcases hh with hh | hh <;> simp_all [blinksOnActivity]

end Sys2Proof.Machine
end

