-- ==== Sys2Proof/Laws/State.lean ====
section
/-! SUPPORT. One lemma per field of State per update, so that no later proof unfolds an update. -/

namespace Sys2Proof.Machine

@[simp] theorem State.complete_params (s : State) (v : Value) : (s.complete v).params = s.params := rfl
@[simp] theorem State.complete_prog (s : State) (v : Value) : (s.complete v).prog = s.prog := rfl
@[simp] theorem State.complete_selector (s : State) (v : Value) : (s.complete v).selector = s.selector := rfl
@[simp] theorem State.complete_pc (s : State) (v : Value) : (s.complete v).pc = s.pc + 1 := rfl
@[simp] theorem State.complete_res (s : State) (v : Value) : (s.complete v).res = some v := rfl
@[simp] theorem State.complete_status (s : State) (v : Value) : (s.complete v).status = s.status := rfl
@[simp] theorem State.complete_handle (s : State) (v : Value) : (s.complete v).handle = s.handle := rfl
@[simp] theorem State.complete_dev (s : State) (v : Value) : (s.complete v).dev = s.dev := rfl
@[simp] theorem State.complete_log (s : State) (v : Value) : (s.complete v).log = s.log := rfl
@[simp] theorem State.complete_oracle (s : State) (v : Value) : (s.complete v).oracle = s.oracle := rfl
@[simp] theorem State.complete_inputs (s : State) (v : Value) : (s.complete v).inputs = s.inputs := rfl
@[simp] theorem State.complete_cutOff (s : State) (v : Value) : (s.complete v).cutOff = s.cutOff := rfl

@[simp] theorem State.raiseError_params (s : State) (e : Error) : (s.raiseError e).params = s.params := rfl
@[simp] theorem State.raiseError_prog (s : State) (e : Error) : (s.raiseError e).prog = s.prog := rfl
@[simp] theorem State.raiseError_selector (s : State) (e : Error) : (s.raiseError e).selector = s.selector := rfl
@[simp] theorem State.raiseError_pc (s : State) (e : Error) : (s.raiseError e).pc = s.pc := rfl
@[simp] theorem State.raiseError_res (s : State) (e : Error) : (s.raiseError e).res = s.res := rfl
@[simp] theorem State.raiseError_status (s : State) (e : Error) : (s.raiseError e).status = .error e := rfl
@[simp] theorem State.raiseError_handle (s : State) (e : Error) : (s.raiseError e).handle = .closed := rfl
@[simp] theorem State.raiseError_dev (s : State) (e : Error) : (s.raiseError e).dev = s.dev := rfl
@[simp] theorem State.raiseError_log (s : State) (e : Error) : (s.raiseError e).log = s.log := rfl
@[simp] theorem State.raiseError_oracle (s : State) (e : Error) : (s.raiseError e).oracle = s.oracle := rfl
@[simp] theorem State.raiseError_inputs (s : State) (e : Error) : (s.raiseError e).inputs = s.inputs := rfl
@[simp] theorem State.raiseError_cutOff (s : State) (e : Error) : (s.raiseError e).cutOff = s.cutOff := rfl

@[simp] theorem State.refuse_params (s : State) (q : Reason) : (s.refuse q).params = s.params := rfl
@[simp] theorem State.refuse_prog (s : State) (q : Reason) : (s.refuse q).prog = s.prog := rfl
@[simp] theorem State.refuse_selector (s : State) (q : Reason) : (s.refuse q).selector = s.selector := rfl
@[simp] theorem State.refuse_pc (s : State) (q : Reason) : (s.refuse q).pc = s.pc := rfl
@[simp] theorem State.refuse_res (s : State) (q : Reason) : (s.refuse q).res = s.res := rfl
@[simp] theorem State.refuse_status (s : State) (q : Reason) : (s.refuse q).status = .refused q := rfl
@[simp] theorem State.refuse_handle (s : State) (q : Reason) : (s.refuse q).handle = .closed := rfl
@[simp] theorem State.refuse_dev (s : State) (q : Reason) : (s.refuse q).dev = s.dev := rfl
@[simp] theorem State.refuse_log (s : State) (q : Reason) : (s.refuse q).log = s.log := rfl
@[simp] theorem State.refuse_oracle (s : State) (q : Reason) : (s.refuse q).oracle = s.oracle := rfl
@[simp] theorem State.refuse_inputs (s : State) (q : Reason) : (s.refuse q).inputs = s.inputs := rfl
@[simp] theorem State.refuse_cutOff (s : State) (q : Reason) : (s.refuse q).cutOff = s.cutOff := rfl

@[simp] theorem State.finishRun_params (s : State) : (s.finishRun).params = s.params := rfl
@[simp] theorem State.finishRun_prog (s : State) : (s.finishRun).prog = s.prog := rfl
@[simp] theorem State.finishRun_selector (s : State) : (s.finishRun).selector = s.selector := rfl
@[simp] theorem State.finishRun_pc (s : State) : (s.finishRun).pc = s.pc := rfl
@[simp] theorem State.finishRun_res (s : State) : (s.finishRun).res = s.res := rfl
@[simp] theorem State.finishRun_status (s : State) : (s.finishRun).status = .done := rfl
@[simp] theorem State.finishRun_handle (s : State) : (s.finishRun).handle = .closed := rfl
@[simp] theorem State.finishRun_dev (s : State) : (s.finishRun).dev = s.dev := rfl
@[simp] theorem State.finishRun_log (s : State) : (s.finishRun).log = s.log := rfl
@[simp] theorem State.finishRun_oracle (s : State) : (s.finishRun).oracle = s.oracle := rfl
@[simp] theorem State.finishRun_inputs (s : State) : (s.finishRun).inputs = s.inputs := rfl
@[simp] theorem State.finishRun_cutOff (s : State) : (s.finishRun).cutOff = s.cutOff := rfl

@[simp] theorem State.startProgram_params (s : State) (sel : Selector) (prog : List Descriptor) : (s.startProgram sel prog).params = s.params := rfl
@[simp] theorem State.startProgram_prog (s : State) (sel : Selector) (prog : List Descriptor) : (s.startProgram sel prog).prog = prog := rfl
@[simp] theorem State.startProgram_selector (s : State) (sel : Selector) (prog : List Descriptor) : (s.startProgram sel prog).selector = sel := rfl
@[simp] theorem State.startProgram_pc (s : State) (sel : Selector) (prog : List Descriptor) : (s.startProgram sel prog).pc = 0 := rfl
@[simp] theorem State.startProgram_res (s : State) (sel : Selector) (prog : List Descriptor) : (s.startProgram sel prog).res = none := rfl
@[simp] theorem State.startProgram_status (s : State) (sel : Selector) (prog : List Descriptor) : (s.startProgram sel prog).status = .running := rfl
@[simp] theorem State.startProgram_handle (s : State) (sel : Selector) (prog : List Descriptor) : (s.startProgram sel prog).handle = .closed := rfl
@[simp] theorem State.startProgram_dev (s : State) (sel : Selector) (prog : List Descriptor) : (s.startProgram sel prog).dev = s.dev := rfl
@[simp] theorem State.startProgram_log (s : State) (sel : Selector) (prog : List Descriptor) : (s.startProgram sel prog).log = [] := rfl
@[simp] theorem State.startProgram_oracle (s : State) (sel : Selector) (prog : List Descriptor) : (s.startProgram sel prog).oracle = s.oracle := rfl
@[simp] theorem State.startProgram_inputs (s : State) (sel : Selector) (prog : List Descriptor) : (s.startProgram sel prog).inputs = s.inputs := rfl
@[simp] theorem State.startProgram_cutOff (s : State) (sel : Selector) (prog : List Descriptor) : (s.startProgram sel prog).cutOff = false := rfl

@[simp] theorem State.cutRun_params (s : State) : (s.cutRun).params = s.params := rfl
@[simp] theorem State.cutRun_prog (s : State) : (s.cutRun).prog = s.prog := rfl
@[simp] theorem State.cutRun_selector (s : State) : (s.cutRun).selector = s.selector := rfl
@[simp] theorem State.cutRun_pc (s : State) : (s.cutRun).pc = s.pc := rfl
@[simp] theorem State.cutRun_res (s : State) : (s.cutRun).res = s.res := rfl
@[simp] theorem State.cutRun_status (s : State) : (s.cutRun).status = s.status := rfl
@[simp] theorem State.cutRun_handle (s : State) : (s.cutRun).handle = s.handle := rfl
@[simp] theorem State.cutRun_dev (s : State) : (s.cutRun).dev = s.dev := rfl
@[simp] theorem State.cutRun_log (s : State) : (s.cutRun).log = s.log := rfl
@[simp] theorem State.cutRun_oracle (s : State) : (s.cutRun).oracle = s.oracle := rfl
@[simp] theorem State.cutRun_inputs (s : State) : (s.cutRun).inputs = s.inputs := rfl
@[simp] theorem State.cutRun_cutOff (s : State) : (s.cutRun).cutOff = true := rfl

@[simp] theorem State.record_params (s : State) (ev : Event) : (s.record ev).params = s.params := rfl
@[simp] theorem State.record_prog (s : State) (ev : Event) : (s.record ev).prog = s.prog := rfl
@[simp] theorem State.record_selector (s : State) (ev : Event) : (s.record ev).selector = s.selector := rfl
@[simp] theorem State.record_pc (s : State) (ev : Event) : (s.record ev).pc = s.pc := rfl
@[simp] theorem State.record_res (s : State) (ev : Event) : (s.record ev).res = s.res := rfl
@[simp] theorem State.record_status (s : State) (ev : Event) : (s.record ev).status = s.status := rfl
@[simp] theorem State.record_handle (s : State) (ev : Event) : (s.record ev).handle = s.handle := rfl
@[simp] theorem State.record_dev (s : State) (ev : Event) : (s.record ev).dev = s.dev := rfl
@[simp] theorem State.record_log (s : State) (ev : Event) : (s.record ev).log = s.log ++ [ev] := rfl
@[simp] theorem State.record_oracle (s : State) (ev : Event) : (s.record ev).oracle = s.oracle := rfl
@[simp] theorem State.record_inputs (s : State) (ev : Event) : (s.record ev).inputs = s.inputs := rfl
@[simp] theorem State.record_cutOff (s : State) (ev : Event) : (s.record ev).cutOff = s.cutOff := rfl

@[simp] theorem State.conclude_params (s : State) (r : Result Value) : (s.conclude r).params = s.params := by cases r <;> rfl
@[simp] theorem State.conclude_prog (s : State) (r : Result Value) : (s.conclude r).prog = s.prog := by cases r <;> rfl
@[simp] theorem State.conclude_selector (s : State) (r : Result Value) : (s.conclude r).selector = s.selector := by cases r <;> rfl
@[simp] theorem State.conclude_dev (s : State) (r : Result Value) : (s.conclude r).dev = s.dev := by cases r <;> rfl
@[simp] theorem State.conclude_log (s : State) (r : Result Value) : (s.conclude r).log = s.log := by cases r <;> rfl
@[simp] theorem State.conclude_oracle (s : State) (r : Result Value) : (s.conclude r).oracle = s.oracle := by cases r <;> rfl
@[simp] theorem State.conclude_inputs (s : State) (r : Result Value) : (s.conclude r).inputs = s.inputs := by cases r <;> rfl
@[simp] theorem State.conclude_cutOff (s : State) (r : Result Value) : (s.conclude r).cutOff = s.cutOff := by cases r <;> rfl

@[simp] theorem State.conclude_ok (s : State) (v : Value) : s.conclude (.ok v) = s.complete v := rfl
@[simp] theorem State.conclude_err (s : State) (e : Error) : s.conclude (.err e) = s.raiseError e := rfl
@[simp] theorem State.conclude_refused (s : State) (q : Reason) : s.conclude (.refused q) = s.refuse q := rfl

/-- How an outcome ends its operation: it completes, or it ends the run and leaves pc and res as they were. -/
theorem State.conclude_cases (s : State) (r : Result Value) :
    (∃ v, r = .ok v ∧ s.conclude r = s.complete v) ∨ (∃ e, r = .err e ∧ s.conclude r = s.raiseError e) ∨
      (∃ q, r = .refused q ∧ s.conclude r = s.refuse q) := by
  cases r with
  | ok v => exact .inl ⟨v, rfl, rfl⟩
  | err e => exact .inr (.inl ⟨e, rfl, rfl⟩)
  | refused q => exact .inr (.inr ⟨q, rfl, rfl⟩)

end Sys2Proof.Machine
end

