-- ==== Sys2Proof/Laws/Codec.lean ====
section
/-! SUPPORT. What the codec's functions answer: PACK, UNPACK, LED_ENCODE, and resolving operands. -/

namespace Sys2Proof.Machine

@[simp] theorem Result.bind_ok {α β : Type} (a : α) (f : α → Result β) : (Result.ok a).bind f = f a := rfl
@[simp] theorem Result.bind_err {α β : Type} (e : Error) (f : α → Result β) : (Result.err e : Result α).bind f = .err e := rfl
@[simp] theorem Result.bind_refused {α β : Type} (q : Reason) (f : α → Result β) :
    (Result.refused q : Result α).bind f = .refused q := rfl
@[simp] theorem Result.map_ok {α β : Type} (a : α) (f : α → β) : (Result.ok a).map f = .ok (f a) := rfl
@[simp] theorem Result.map_err {α β : Type} (e : Error) (f : α → β) : (Result.err e : Result α).map f = .err e := rfl
@[simp] theorem Result.map_refused {α β : Type} (q : Reason) (f : α → β) :
    (Result.refused q : Result α).map f = .refused q := rfl
@[simp] theorem Result.thenIn_ok {α β : Type} (a : α) (s : State) (f : α → Result β × State) :
    (Result.ok a).thenIn s f = f a := rfl
@[simp] theorem Result.thenIn_err {α β : Type} (e : Error) (s : State) (f : α → Result β × State) :
    (Result.err e : Result α).thenIn s f = (.err e, s) := rfl
@[simp] theorem Result.thenIn_refused {α β : Type} (q : Reason) (s : State) (f : α → Result β × State) :
    (Result.refused q : Result α).thenIn s f = (.refused q, s) := rfl

/-! ### Little-endian bytes (R51, R76) -/

@[simp] theorem length_leBytes (n : Nat) (v : Word) : (leBytes n v).length = n := by simp [leBytes]

/-- R76, R101: byte k is bits `8k+7 : 8k`. -/
theorem getElem?_leBytes {n k : Nat} (v : Word) (hk : k < n) :
    (leBytes n v)[k]? = some (BitVec.ofNat 8 (v.toNat / 2 ^ (8 * k))) := by
  simp only [leBytes, List.getElem?_map, List.getElem?_range hk, Option.map_some, Option.some.injEq]
  apply BitVec.eq_of_toNat_eq
  rw [BitVec.extractLsb'_toNat, BitVec.toNat_ofNat, Nat.shiftRight_eq_div_pow]

theorem leBytes_four (v : Word) :
    leBytes 4 v = [v.extractLsb' 0 8, v.extractLsb' 8 8, v.extractLsb' 16 8, v.extractLsb' 24 8] := rfl

/-- R110: the sum of a byte list is below 2^(8 n). -/
theorem leSum_lt (bs : List Byte) : leSum bs < 2 ^ (8 * bs.length) := by
  induction bs with
  | nil => simp [leSum]
  | cons b bs ih =>
    have hb := b.isLt
    simp only [leSum, List.length_cons, Nat.mul_add, Nat.pow_add]
    omega

/-- R110: the sum as R110 writes it. -/
theorem leSum_eq_sum (bs : List Byte) :
    leSum bs = ((List.range bs.length).map fun k => (bs.getD k 0).toNat * 2 ^ (8 * k)).sum := by
  induction bs with
  | nil => rfl
  | cons b bs ih =>
    rw [List.length_cons, List.range_succ_eq_map, List.map_cons, List.sum_cons, List.map_map, leSum, ih]
    simp only [List.getD_cons_zero, Nat.mul_zero, Nat.pow_zero, Nat.mul_one, Function.comp_def,
      List.getD_cons_succ, ← List.sum_map_mul_left]
    congr 2
    apply List.map_congr_left
    intro k _
    rw [Nat.succ_eq_add_one, Nat.mul_add, Nat.pow_add]
    ring

/-- R120: the bytes of a word, n of them, sum to its low 8 n bits. -/
theorem leSum_leBytes (n : Nat) (v : Word) : leSum (leBytes n v) = v.toNat % 2 ^ (8 * n) := by
  rw [leSum_eq_sum, length_leBytes]
  induction n with
  | zero => simp [Nat.mod_one]
  | succ n ih =>
    rw [List.range_succ, List.map_append, List.sum_append]
    have hlow : ((List.range n).map fun k => ((leBytes (n + 1) v).getD k 0).toNat * 2 ^ (8 * k))
        = (List.range n).map fun k => ((leBytes n v).getD k 0).toNat * 2 ^ (8 * k) := by
      apply List.map_congr_left
      intro k hk
      have hk := List.mem_range.mp hk
      rw [List.getD_eq_getElem?_getD, List.getD_eq_getElem?_getD, getElem?_leBytes v hk, getElem?_leBytes v (by omega)]
    rw [hlow, ih, List.map_singleton, List.sum_singleton, List.getD_eq_getElem?_getD, getElem?_leBytes v (by omega)]
    simp only [Option.getD_some, BitVec.toNat_ofNat]
    rw [Nat.mul_add, Nat.pow_add, Nat.mod_mul]
    ring

/-- R111: the value of at most four bytes is their sum, with no wrap-around. -/
theorem toNat_leValue {bs : List Byte} (h : bs.length ≤ 4) : (leValue bs).toNat = leSum bs := by
  have h32 : leSum bs < 2 ^ 32 := lt_of_lt_of_le (leSum_lt bs) (Nat.pow_le_pow_right (by decide) (by omega))
  rw [leValue, BitVec.toNat_ofNat, Nat.mod_eq_of_lt h32]

/-- R121: bytes are the little-endian bytes of their value. -/
theorem leBytes_leValue {bs : List Byte} (h : bs.length ≤ 4) : leBytes bs.length (leValue bs) = bs := by
  have hv := toNat_leValue h
  apply List.ext_getElem?
  intro k
  by_cases hk : k < bs.length
  · rw [getElem?_leBytes _ hk, hv]
    clear h hv
    induction bs generalizing k with
    | nil => simp at hk
    | cons b bs ih =>
      cases k with
      | zero =>
        simp only [Nat.mul_zero, Nat.pow_zero, Nat.div_one, List.getElem?_cons_zero, Option.some.injEq, leSum]
        apply BitVec.eq_of_toNat_eq
        have := b.isLt
        rw [BitVec.toNat_ofNat]
        omega
      | succ k =>
        have hb := b.isLt
        have hd : (leSum (b :: bs)) / 2 ^ (8 * (k + 1)) = leSum bs / 2 ^ (8 * k) := by
          rw [Nat.mul_add, Nat.add_comm (8 * k), Nat.pow_add, ← Nat.div_div_eq_div_mul]
          congr 1
          simp only [leSum]
          omega
        rw [hd, List.getElem?_cons_succ]
        exact ih k (by simpa using hk)
  · rw [List.getElem?_eq_none (by simpa using hk), List.getElem?_eq_none (by omega)]

/-- A word of w/8 bytes that fits is the value of its bytes (R120). -/
theorem leValue_leBytes {n : Nat} {v : Word} (h : v.toNat < 2 ^ (8 * n)) : leValue (leBytes n v) = v := by
  rw [leValue, leSum_leBytes, Nat.mod_eq_of_lt h]
  simp

/-! ### PACK and UNPACK -/

/-- R77: the supported widths are whole numbers of bytes, at most four. -/
theorem width_cases {w : Nat} (h : w ∈ Config.widths) : 8 * (w / 8) = w ∧ w / 8 ≤ 4 ∧ 0 < w / 8 := by
  simp only [Config.widths, List.mem_cons, List.not_mem_nil, or_false] at h
  omega

/-- Everything PACK answers (R100). -/
theorem pack_cases (v : Word) (w : Nat) :
    (w ∉ Config.widths ∧ pack v w = .err .unsupportedWidth) ∨
      (w ∈ Config.widths ∧ 2 ^ w ≤ v.toNat ∧ pack v w = .refused .valueTooWide) ∨
      (w ∈ Config.widths ∧ v.toNat < 2 ^ w ∧ pack v w = .ok (leBytes (w / 8) v)) := by
  unfold pack
  by_cases hw : w ∈ Config.widths
  · by_cases hv : 2 ^ w ≤ v.toNat
    · exact .inr (.inl ⟨hw, hv, by rw [if_pos hw, if_pos hv]⟩)
    · exact .inr (.inr ⟨hw, by omega, by rw [if_pos hw, if_neg hv]⟩)
  · exact .inl ⟨hw, if_neg hw⟩

/-- Everything UNPACK answers (R110). -/
theorem unpack_cases (bs : List Byte) (w : Nat) :
    (w ∉ Config.widths ∧ unpack bs w = .err .unsupportedWidth) ∨
      (w ∈ Config.widths ∧ bs.length ≠ w / 8 ∧ unpack bs w = .err .invalidWidth) ∨
      (w ∈ Config.widths ∧ bs.length = w / 8 ∧ unpack bs w = .ok (leValue bs)) := by
  unfold unpack
  by_cases hw : w ∈ Config.widths
  · by_cases hl : bs.length = w / 8
    · exact .inr (.inr ⟨hw, hl, by rw [if_pos hw, if_pos hl]⟩)
    · exact .inr (.inl ⟨hw, hl, by rw [if_pos hw, if_neg hl]⟩)
  · exact .inl ⟨hw, if_neg hw⟩

/-- R185: packing at 32 bits always succeeds. -/
theorem pack_32 (v : Word) : pack v 32 = .ok (leBytes 4 v) := by
  have := v.isLt
  rcases pack_cases v 32 with ⟨h, -⟩ | ⟨-, h, -⟩ | ⟨-, -, h⟩
  · exact absurd (by decide) h
  · omega
  · exact h

/-- A packed byte list has w/8 bytes. -/
theorem pack_ok {v : Word} {w : Nat} {bs : List Byte} (h : pack v w = .ok bs) :
    w ∈ Config.widths ∧ v.toNat < 2 ^ w ∧ bs = leBytes (w / 8) v := by
  rcases pack_cases v w with ⟨-, h'⟩ | ⟨-, -, h'⟩ | ⟨hw, hv, h'⟩
  · rw [h'] at h; cases h
  · rw [h'] at h; cases h
  · rw [h'] at h; cases h; exact ⟨hw, hv, rfl⟩

/-! ### LED_ENCODE -/

/-- Everything LED_ENCODE answers (R140, R142). -/
theorem encodeConfig_cases (p : Params) (c : LedConfiguration) :
    ((asks2500m c = true ∧ p.has2500m = false ∨ bdInv p (c.blinkInterval, c.dutyPermille) = none) ∧
        encodeConfig p c = .err .unsupportedConfiguration) ∨
      ∃ pattern, (p.has2500m = true ∨ asks2500m c = false) ∧
        bdInv p (c.blinkInterval, c.dutyPermille) = some pattern ∧ encodeConfig p c = .ok (encodeWord p c pattern) := by
  unfold encodeConfig
  by_cases h : (asks2500m c && !p.has2500m) = true
  · simp only [Bool.and_eq_true, Bool.not_eq_true'] at h
    exact .inl ⟨.inl h, by simp [h]⟩
  · rw [if_neg h]
    simp only [Bool.and_eq_true, Bool.not_eq_true', not_and_or, Bool.not_eq_true, Bool.not_eq_false] at h
    cases hb : bdInv p (c.blinkInterval, c.dutyPermille) with
    | none => exact .inl ⟨.inr rfl, rfl⟩
    | some pattern => exact .inr ⟨pattern, h.symm, rfl, rfl⟩

/-- R140: some LED asks for 2500M. -/
theorem asks2500m_iff (c : LedConfiguration) : asks2500m c = true ↔ ∃ i : Fin 3, (c.leds.get i).link2500 = true := by
  rw [exists_fin3]
  simp [asks2500m, or_assoc]

/-- R140: an LED of a configuration that does not ask for 2500M has no 2500M trigger. -/
theorem link2500_of_asks {c : LedConfiguration} (h : asks2500m c = false) (i : Fin 3) : (c.leds.get i).link2500 = false := by
  by_contra hn
  have : asks2500m c = true := (asks2500m_iff c).mpr ⟨i, by simpa using hn⟩
  rw [h] at this
  cases this

/-! ### Operands (R23) -/

/-- Resolving answers the value or OperandType, whatever the operand's type. -/
theorem resolveU32_cases (a : Arg Word) (s : State) :
    (∃ v, resolveU32 a s = .ok v) ∨ resolveU32 a s = .refused .operandType := by
  unfold resolveU32
  cases a with
  | lit v => exact .inl ⟨v, rfl⟩
  | res => rcases s.res with _ | (_ | _ | _ | _) <;> simp

theorem resolveBytes_cases (a : Arg (List Byte)) (s : State) :
    (∃ bs, resolveBytes a s = .ok bs) ∨ resolveBytes a s = .refused .operandType := by
  unfold resolveBytes
  cases a with
  | lit v => exact .inl ⟨v, rfl⟩
  | res => rcases s.res with _ | (_ | _ | _ | _) <;> simp

theorem resolveConfig_cases (a : Arg LedConfiguration) (s : State) :
    (∃ c, resolveConfig a s = .ok c) ∨ resolveConfig a s = .refused .operandType := by
  unfold resolveConfig
  cases a with
  | lit v => exact .inl ⟨v, rfl⟩
  | res => rcases s.res with _ | (_ | _ | _ | _) <;> simp

theorem resolveNat_cases (a : Arg Nat) : (∃ n, resolveNat a = .ok n) ∨ resolveNat a = .refused .operandType := by
  cases a with
  | lit n => exact .inl ⟨n, rfl⟩
  | res => exact .inr rfl

@[simp] theorem resolveU32_lit (v : Word) (s : State) : resolveU32 (.lit v) s = .ok v := rfl
@[simp] theorem resolveBytes_lit (bs : List Byte) (s : State) : resolveBytes (.lit bs) s = .ok bs := rfl
@[simp] theorem resolveConfig_lit (c : LedConfiguration) (s : State) : resolveConfig (.lit c) s = .ok c := rfl
@[simp] theorem resolveNat_lit (n : Nat) : resolveNat (.lit n) = .ok n := rfl
@[simp] theorem resolveNat_res : resolveNat .res = .refused .operandType := rfl

end Sys2Proof.Machine
end

