-- ==== Sys2Proof/Laws/Decode.lean ====
section
/-! SUPPORT. The operand readers against the operand writer: what a reader accepts is what the writer wrote. -/

namespace Sys2Proof

@[simp] theorem asU32_toOperand (a : Arg Word) : asU32 (a.toOperand .u32) = some a := by cases a <;> rfl
@[simp] theorem asBytes_toOperand (a : Arg (List Byte)) : asBytes (a.toOperand .bytes) = some a := by cases a <;> rfl
@[simp] theorem asWidth_toOperand (a : Arg Nat) : asWidth (a.toOperand .width) = some a := by cases a <;> rfl
@[simp] theorem asOffset_toOperand (a : Arg Nat) : asOffset (a.toOperand .offset) = some a := by cases a <;> rfl
@[simp] theorem asConfig_toOperand (a : Arg LedConfiguration) : asConfig (a.toOperand .config) = some a := by
  cases a <;> rfl

theorem toOperand_of_asU32 {o : OperandVal} {a : Arg Word} (h : asU32 o = some a) : a.toOperand .u32 = o := by
  cases o <;> simp [asU32] at h <;> subst h <;> rfl

theorem toOperand_of_asBytes {o : OperandVal} {a : Arg (List Byte)} (h : asBytes o = some a) : a.toOperand .bytes = o := by
  cases o <;> simp [asBytes] at h <;> subst h <;> rfl

theorem toOperand_of_asWidth {o : OperandVal} {a : Arg Nat} (h : asWidth o = some a) : a.toOperand .width = o := by
  cases o <;> simp [asWidth] at h <;> subst h <;> rfl

theorem toOperand_of_asOffset {o : OperandVal} {a : Arg Nat} (h : asOffset o = some a) : a.toOperand .offset = o := by
  cases o <;> simp [asOffset] at h <;> subst h <;> rfl

theorem toOperand_of_asConfig {o : OperandVal} {a : Arg LedConfiguration} (h : asConfig o = some a) :
    a.toOperand .config = o := by
  cases o <;> simp [asConfig] at h <;> subst h <;> rfl

/-- A typed tuple is accepted exactly as it was read. -/
theorem eq_some_of_typed {x : Option Instr} {i : Instr} (h : typed x = .ok i) : x = some i := by
  cases x with
  | none => cases h
  | some j => cases h; rfl

end Sys2Proof
end

