-- ==== Sys2Proof/Laws/Exec.lean ====
section
/-! SUPPORT. What a transfer, an operation and a step can do, said once each. -/

namespace Sys2Proof.Machine

/-! ### The transport (R171) -/

/-- Everything `MemRead` does: one read event, and the bytes or the failure it carries. -/
theorem memRead_cases (off n : Nat) (s : State) :
    (∃ f, (drawRead s.oracle).1 = .err f ∧
      memRead off n s = (.err (faultError f), { s with
        oracle := (drawRead s.oracle).2
        log := s.log ++ [.read off (8 * n) (indexField s.params (8 * n)) (.err f)] })) ∨
    (∃ k d, (drawRead s.oracle).1 = .ok k d ∧
      memRead off n s = (.ok (readBytes s.params s.dev off n (min k n) d), { s with
        oracle := (drawRead s.oracle).2
        log := s.log ++ [.read off (8 * n) (indexField s.params (8 * n))
          (.ok (min k n) (readBytes s.params s.dev off n (min k n) d))] })) := by
  unfold memRead State.record
  cases h : (drawRead s.oracle).1 with
  | ok k d => exact .inr ⟨k, d, rfl, by simp only [h]⟩
  | err f => exact .inl ⟨f, rfl, by simp only [h]⟩

/-- Everything `MemWrite` does: one write event, the device after it, and the count or the failure. -/
theorem memWrite_cases (off n : Nat) (bs : List Byte) (s : State) :
    (∃ f, (drawWrite s.oracle).1 = .err f ∧
      memWrite off n bs s = (.err (faultError f), { s with
        oracle := (drawWrite s.oracle).2, dev := { s.dev with known := false }
        log := s.log ++ [.write off (8 * n) (indexField s.params (8 * n)) bs (.err f)] })) ∨
    (∃ k, (drawWrite s.oracle).1 = .ok k ∧
      memWrite off n bs s = (.ok (min k n), { s with
        oracle := (drawWrite s.oracle).2, dev := deviceAfterWrite s.params s.dev off n bs (.ok (min k n))
        log := s.log ++ [.write off (8 * n) (indexField s.params (8 * n)) bs (.ok (min k n))] })) := by
  unfold memWrite State.record
  cases h : (drawWrite s.oracle).1 with
  | ok k => exact .inr ⟨k, rfl, by simp only [h, boundedWrite]⟩
  | err f => exact .inl ⟨f, rfl, by simp [h, boundedWrite, deviceAfterWrite]⟩

/-- R55, R57: a read gives as many bytes as arrived. -/
@[simp] theorem length_readBytes (p : Params) (dev : DevState) (off n k : Nat) (d : Word) :
    (readBytes p dev off n k d).length = k := by
  unfold readBytes
  split
  · rename_i h; simp [h.2.2]
  · simp

/-- R56: a complete 32-bit write at `LED_REG` stores its value; every other write leaves the register unknown. -/
theorem deviceAfterWrite_cases (p : Params) (dev : DevState) (off n : Nat) (bs : List Byte) (o : WriteOutcome) :
    (off = p.ledReg ∧ n = 4 ∧ o = .ok 4 ∧ deviceAfterWrite p dev off n bs o = ⟨leValue bs, true⟩) ∨
      (¬ (off = p.ledReg ∧ n = 4 ∧ o = .ok 4) ∧ deviceAfterWrite p dev off n bs o = { dev with known := false }) := by
  unfold deviceAfterWrite
  by_cases h : off = p.ledReg ∧ n = 4 ∧ o = .ok 4
  · exact .inl ⟨h.1, h.2.1, h.2.2, if_pos h⟩
  · exact .inr ⟨h, if_neg h⟩

/-- R55: the three cases of a complete 32-bit read at `LED_REG`. -/
theorem ledReadValue_cases (p : Params) (dev : DevState) (d : Word) :
    (dev.known = false ∧ ledReadValue p dev d = d) ∨
      (dev.known = true ∧ dev.led &&& reservedMask p = 0 ∧ ledReadValue p dev d = dev.led) ∨
      (dev.known = true ∧ dev.led &&& reservedMask p ≠ 0 ∧
        ledReadValue p dev d = (dev.led &&& fieldMask p) ||| (d &&& reservedMask p)) := by
  unfold ledReadValue
  cases hk : dev.known with
  | false => exact .inl ⟨rfl, if_neg Bool.false_ne_true⟩
  | true =>
    by_cases h : dev.led &&& reservedMask p = 0
    · exact .inr (.inl ⟨rfl, h, by rw [if_pos rfl, if_pos h]⟩)
    · exact .inr (.inr ⟨rfl, h, by rw [if_pos rfl, if_neg h]⟩)

/-- What an operation does to the state before it concludes: nothing, one read, or one write. -/
inductive Transferred (s : State) : State → Prop where
  | none : Transferred s s
  | read (o : Oracle) (off w index : Nat) (outcome : ReadOutcome) :
      Transferred s { s with oracle := o, log := s.log ++ [.read off w index outcome] }
  | write (o : Oracle) (off n index : Nat) (bs : List Byte) (outcome : WriteOutcome) (h : bs.length = n) :
      Transferred s { s with
        oracle := o, dev := deviceAfterWrite s.params s.dev off n bs outcome
        log := s.log ++ [.write off (8 * n) index bs outcome] }

/-- R190, R180: a register read raises only transport errors and InvalidWidth. -/
theorem readRegister_cases (off w : Nat) (s : State) :
    Transferred s (readRegister off w s).2 ∧ (w ∈ Config.widths →
      (∃ v, (readRegister off w s).1 = .ok v) ∨
      ∃ e ∈ [Error.transportTimeout, .transportError, .invalidWidth], (readRegister off w s).1 = .err e) := by
  unfold readRegister
  rcases memRead_cases off (w / 8) s with ⟨f, -, h⟩ | ⟨k, d, -, h⟩
  · rw [h]
    exact ⟨.read _ _ _ _ _, fun _ => .inr ⟨faultError f, by cases f <;> simp [faultError], rfl⟩⟩
  · rw [h]
    refine ⟨.read _ _ _ _ _, fun hw => ?_⟩
    rcases unpack_cases (readBytes s.params s.dev off (w / 8) (min k (w / 8)) d) w with ⟨h1, -⟩ | ⟨-, -, h3⟩ | ⟨-, -, h3⟩
    · exact absurd hw h1
    · exact .inr ⟨.invalidWidth, by simp, h3⟩
    · exact .inl ⟨_, h3⟩

/-- R195, R185: a register write raises only transport errors. -/
theorem writeBytes_cases (off w : Nat) (bs : List Byte) (s : State) (hbs : bs.length = w / 8) :
    Transferred s (writeBytes off w bs s).2 ∧
      ((∃ u, (writeBytes off w bs s).1 = .ok u) ∨
        ∃ e ∈ [Error.transportTimeout, .transportError], (writeBytes off w bs s).1 = .err e) := by
  unfold writeBytes
  rcases memWrite_cases off (w / 8) bs s with ⟨f, -, h⟩ | ⟨k, -, h⟩
  · rw [h]
    have hd : ({ s.dev with known := false } : DevState) = deviceAfterWrite s.params s.dev off (w / 8) bs (.err f) := by
      simp [deviceAfterWrite]
    rw [hd]
    exact ⟨.write _ _ _ _ _ _ hbs, .inr ⟨faultError f, by cases f <;> simp [faultError], rfl⟩⟩
  · rw [h]
    refine ⟨.write _ _ _ _ _ _ hbs, ?_⟩
    by_cases hk : min k (w / 8) = w / 8
    · exact .inl ⟨(), by simp [hk]⟩
    · exact .inr ⟨.transportError, by simp, by simp [hk]⟩

/-- Everything the checks of a raw access answer, in their order (R205). -/
theorem checkAccess_cases (p : Params) (off w : Nat) :
    (w ∉ Config.widths ∧ checkAccess p off w = .err .unsupportedWidth) ∨
      (w ∈ Config.widths ∧ 2 ^ p.offsetBits ≤ off ∧ checkAccess p off w = .refused .offsetRange) ∨
      (w ∈ Config.widths ∧ off < 2 ^ p.offsetBits ∧ off % (w / 8) ≠ 0 ∧ checkAccess p off w = .refused .misaligned) ∨
      (w ∈ Config.widths ∧ off < 2 ^ p.offsetBits ∧ off % (w / 8) = 0 ∧ checkAccess p off w = .ok ()) := by
  unfold checkAccess
  by_cases hw : w ∈ Config.widths
  · by_cases ho : 2 ^ p.offsetBits ≤ off
    · exact .inr (.inl ⟨hw, ho, by rw [if_pos hw, if_pos ho]⟩)
    · by_cases ha : off % (w / 8) = 0
      · exact .inr (.inr (.inr ⟨hw, by omega, ha, by rw [if_pos hw, if_neg ho, if_neg (not_not.mpr ha)]⟩))
      · exact .inr (.inr (.inl ⟨hw, by omega, ha, by rw [if_pos hw, if_neg ho, if_pos ha]⟩))
  · exact .inl ⟨hw, if_neg hw⟩

/-! ### Operations -/

theorem resolveU32_of_denotes {a : Arg Word} {s : State} {v : Word} (h : DenotesU32 a s v) : resolveU32 a s = .ok v := by
  rcases h with rfl | ⟨rfl, h⟩
  · rfl
  · simp [resolveU32, h]

theorem resolveBytes_of_denotes {a : Arg (List Byte)} {s : State} {bs : List Byte} (h : DenotesBytes a s bs) :
    resolveBytes a s = .ok bs := by
  rcases h with rfl | ⟨rfl, h⟩
  · rfl
  · simp [resolveBytes, h]

theorem resolveConfig_of_denotes {a : Arg LedConfiguration} {s : State} {c : LedConfiguration} (h : DenotesConfig a s c) :
    resolveConfig a s = .ok c := by
  rcases h with rfl | ⟨rfl, h⟩
  · rfl
  · simp [resolveConfig, h]

/-- Each operation with its operands resolved (R23): what it concludes with, and from which state. -/
theorem exec_pack {a : Arg Word} {s : State} {v : Word} (h : DenotesU32 a s v) (w : Nat) :
    exec (.pack a (.lit w)) s = .next (s.conclude ((pack v w).map .bytes)) := by
  simp [exec, execPack, resolveU32_of_denotes h]

theorem exec_unpack {a : Arg (List Byte)} {s : State} {bs : List Byte} (h : DenotesBytes a s bs) (w : Nat) :
    exec (.unpack a (.lit w)) s = .next (s.conclude ((unpack bs w).map .u32)) := by
  simp [exec, execUnpack, resolveBytes_of_denotes h]

theorem exec_ledDecode {a : Arg Word} {s : State} {raw : Word} (h : DenotesU32 a s raw) :
    exec (.ledDecode a) s = .next (s.complete (.config (decodeConfig s.params raw))) := by
  simp [exec, execLedDecode, resolveU32_of_denotes h]

theorem exec_ledEncode {a : Arg LedConfiguration} {s : State} {c : LedConfiguration} (h : DenotesConfig a s c) :
    exec (.ledEncode a) s = .next (s.conclude ((encodeConfig s.params c).map .u32)) := by
  simp [exec, execLedEncode, resolveConfig_of_denotes h]

theorem exec_dsWrite {a : Arg LedConfiguration} {s : State} {c : LedConfiguration} (h : DenotesConfig a s c) :
    exec (.dsWrite a) s = .next ((dsWrite c s).2.conclude ((dsWrite c s).1.map fun _ => .unit)) := by
  simp [exec, execDsWrite, resolveConfig_of_denotes h]

theorem exec_dsReadRaw (off w : Nat) (s : State) :
    exec (.dsReadRaw (.lit off) (.lit w)) s = .next ((dsReadRaw off w s).2.conclude ((dsReadRaw off w s).1.map .u32)) := rfl

theorem exec_dsWriteRaw {a : Arg Word} {s : State} {v : Word} (h : DenotesU32 a s v) (off w : Nat) :
    exec (.dsWriteRaw (.lit off) (.lit w) a) s =
      .next ((dsWriteRaw off w v s).2.conclude ((dsWriteRaw off w v s).1.map fun _ => .unit)) := by
  simp [exec, execDsWriteRaw, resolveU32_of_denotes h]

/-- Everything an operation can do (R23): at most one transfer, then one of the three outcomes; an error or a refusal is
one of its row's (R200, R203), a refused operation has made no transfer, and one that reaches no device makes none. -/
theorem exec_inversion (i : Instr) (s : State) :
    ∃ (t : State) (r : Result Value), exec i s = .next (t.conclude r) ∧ Transferred s t ∧
      (∀ e, r = .err e → e ∈ mayRaise i) ∧ (∀ q, r = .refused q → q ∈ mayRefuse i ∧ t = s) ∧
      (reachesTransport i = false → t = s) := by
  cases i with
  | pack v w =>
    refine ⟨s, _, rfl, .none, ?_⟩
    rcases resolveU32_cases v s with ⟨x, h⟩ | h
    · rcases resolveNat_cases w with ⟨n, hn⟩ | hn
      · rcases pack_cases x n with ⟨-, hp⟩ | ⟨-, -, hp⟩ | ⟨-, -, hp⟩ <;> simp [h, hn, hp, mayRaise, mayRefuse]
      · simp [h, hn, mayRefuse]
    · simp [h, mayRefuse]
  | unpack bs w =>
    refine ⟨s, _, rfl, .none, ?_⟩
    rcases resolveBytes_cases bs s with ⟨x, h⟩ | h
    · rcases resolveNat_cases w with ⟨n, hn⟩ | hn
      · rcases unpack_cases x n with ⟨-, hp⟩ | ⟨-, -, hp⟩ | ⟨-, -, hp⟩ <;> simp [h, hn, hp, mayRaise]
      · simp [h, hn, mayRefuse]
    · simp [h, mayRefuse]
  | ledDecode raw =>
    refine ⟨s, _, rfl, .none, ?_⟩
    rcases resolveU32_cases raw s with ⟨x, h⟩ | h <;> simp [h, mayRefuse]
  | ledEncode c =>
    refine ⟨s, _, rfl, .none, ?_⟩
    rcases resolveConfig_cases c s with ⟨x, h⟩ | h
    · rcases encodeConfig_cases s.params x with ⟨-, he⟩ | ⟨pattern, -, -, he⟩ <;> simp [h, he, mayRaise]
    · simp [h, mayRefuse]
  | dsRead =>
    obtain ⟨ht, hr⟩ := readRegister_cases s.params.ledReg 32 s
    refine ⟨_, _, rfl, ht, ?_⟩
    rcases hr (by decide) with ⟨v, hv⟩ | ⟨e, hm, he⟩
    · simp [hv, reachesTransport]
    · simp [he, mayRaise, reachesTransport]
      simpa using hm
  | dsWrite c =>
    refine ⟨_, _, rfl, ?_⟩
    rcases resolveConfig_cases c s with ⟨x, h⟩ | h
    · rcases encodeConfig_cases s.params x with ⟨-, he⟩ | ⟨pattern, -, -, he⟩
      · simp [h, dsWrite, he, mayRaise, reachesTransport, Transferred.none]
      · obtain ⟨ht, hr⟩ := writeBytes_cases s.params.ledReg 32 (leBytes 4 (encodeWord s.params x pattern)) s (by simp)
        rcases hr with ⟨u, hu⟩ | ⟨e, hm, hu⟩
        · simp [h, dsWrite, he, pack_32, hu, reachesTransport, ht]
        · simp [h, dsWrite, he, pack_32, hu, reachesTransport, ht, mayRaise]
          simp at hm
          tauto
    · simp [h, mayRefuse, reachesTransport, Transferred.none]
  | dsReadRaw off w =>
    refine ⟨_, _, rfl, ?_⟩
    rcases resolveNat_cases off with ⟨a, ha⟩ | ha
    · rcases resolveNat_cases w with ⟨n, hn⟩ | hn
      · rcases checkAccess_cases s.params a n with ⟨-, h⟩ | ⟨-, -, h⟩ | ⟨-, -, -, h⟩ | ⟨hw, -, -, h⟩
        · simp [ha, hn, dsReadRaw, h, mayRaise, Transferred.none]
        · simp [ha, hn, dsReadRaw, h, mayRefuse, Transferred.none]
        · simp [ha, hn, dsReadRaw, h, mayRefuse, Transferred.none]
        · obtain ⟨ht, hr⟩ := readRegister_cases a n s
          rcases hr hw with ⟨v, hv⟩ | ⟨e, hm, hv⟩
          · simp [ha, hn, dsReadRaw, h, hv, ht, reachesTransport]
          · simp [ha, hn, dsReadRaw, h, hv, ht, reachesTransport, mayRaise]
            simp at hm
            tauto
      · simp [ha, hn, mayRefuse, Transferred.none]
    · simp [ha, mayRefuse, Transferred.none]
  | dsWriteRaw off w v =>
    refine ⟨_, _, rfl, ?_⟩
    rcases resolveNat_cases off with ⟨a, ha⟩ | ha
    · rcases resolveNat_cases w with ⟨n, hn⟩ | hn
      · rcases resolveU32_cases v s with ⟨x, hx⟩ | hx
        · rcases checkAccess_cases s.params a n with ⟨-, h⟩ | ⟨-, -, h⟩ | ⟨-, -, -, h⟩ | ⟨hw, -, -, h⟩
          · simp [ha, hn, hx, dsWriteRaw, h, mayRaise, Transferred.none]
          · simp [ha, hn, hx, dsWriteRaw, h, mayRefuse, Transferred.none]
          · simp [ha, hn, hx, dsWriteRaw, h, mayRefuse, Transferred.none]
          · rcases pack_cases x n with ⟨hp, -⟩ | ⟨-, -, hp⟩ | ⟨-, -, hp⟩
            · exact absurd hw hp
            · simp [ha, hn, hx, dsWriteRaw, h, hp, mayRefuse, Transferred.none]
            · obtain ⟨ht, hr⟩ := writeBytes_cases a n (leBytes (n / 8) x) s (by simp)
              rcases hr with ⟨u, hu⟩ | ⟨e, hm, hu⟩
              · simp [ha, hn, hx, dsWriteRaw, h, hp, hu, ht, reachesTransport]
              · simp [ha, hn, hx, dsWriteRaw, h, hp, hu, ht, reachesTransport, mayRaise]
                simp at hm
                tauto
        · simp [ha, hn, hx, mayRefuse, Transferred.none]
      · simp [ha, hn, mayRefuse, Transferred.none]
    · simp [ha, mayRefuse, Transferred.none]
  | reserved op operands => exact ⟨s, .refused .illegalOperation, rfl, .none, by simp [mayRefuse]⟩

/-! ### Steps -/

/-- R173: everything the prologue's open does. -/
theorem openDevice_cases (s : State) :
    ∃ o, o = openOutcome s.selector (drawOpen s.oracle).1 ∧
      let u := { s with oracle := (drawOpen s.oracle).2, log := s.log ++ [Event.opening s.selector o] }
      (o = .handle ∧ openDevice s = { u with handle := .opened }) ∨
        (o = .deviceNotFound ∧ openDevice s = u.raiseError .deviceNotFound) ∨
        (o = .multipleMatches ∧ openDevice s = u.raiseError .multipleMatches) := by
  refine ⟨_, rfl, ?_⟩
  unfold openDevice State.record
  cases h : openOutcome s.selector (drawOpen s.oracle).1 <;> simp [h]

/-- R173: a bus address never matches several devices. -/
theorem openOutcome_busAddress (bus address : Nat) (x : OpenOutcome) :
    openOutcome (.busAddress bus address) x ≠ .multipleMatches := by
  cases x <;> simp [openOutcome]

/-- Everything a harness step can answer with a next state (R23): a refusal of the parameters, a failed open, the end of
the run, or an operation, from the state itself or from the state the open left. -/
theorem harnessStep_cases {s t : State} (h : harnessStep s = .next t) :
    s.status = .running ∧ s.cutOff = false ∧
      ((paramsOk s.params = false ∧ t = s.refuse .badParams) ∨
        (paramsOk s.params = true ∧ s.handle = .closed ∧ (openDevice s).handle = .closed ∧ t = openDevice s) ∨
        (paramsOk s.params = true ∧ ∃ u, (s.handle = .opened ∧ u = s ∨
            s.handle = .closed ∧ (openDevice s).handle = .opened ∧ u = openDevice s) ∧
          (u.pc = u.prog.length ∧ t = u.finishRun ∨
            ∃ d i, u.prog[u.pc]? = some d ∧ decode d = .ok i ∧ exec i u = .next t))) := by
  have hop {u : State} (h : runOperation u = .next t) : u.pc = u.prog.length ∧ t = u.finishRun ∨
      ∃ d i, u.prog[u.pc]? = some d ∧ decode d = .ok i ∧ exec i u = .next t := by
    unfold runOperation at h
    split at h
    · rename_i hpc; cases h; exact .inl ⟨hpc, rfl⟩
    · split at h
      · cases h
      · rename_i d hd
        split at h
        · rename_i i hi; exact .inr ⟨d, i, hd, hi, h⟩
        · cases h
  unfold harnessStep at h
  split at h
  · rename_i hs
    split at h
    · cases h
    rename_i hcut
    refine ⟨hs, by simpa using hcut, ?_⟩
    split at h
    · rename_i hp
      unfold runWithHandle at h
      split at h
      · rename_i hh; exact .inr (.inr ⟨hp, s, .inl ⟨hh, rfl⟩, hop h⟩)
      · rename_i hh
        split at h
        · rename_i ho; exact .inr (.inr ⟨hp, _, .inr ⟨hh, ho, rfl⟩, hop h⟩)
        · rename_i ho; cases h; exact .inr (.inl ⟨hp, hh, ho, rfl⟩)
    · rename_i hp; cases h; exact .inl ⟨by simpa using hp, rfl⟩
  all_goals cases h

/-- Everything a step can answer with a next state: an outside event, or a harness step. -/
theorem step_cases {s t : State} (h : step s = .next t) :
    (∃ rest, s.inputs = .powerCycle :: rest ∧ t = { s with inputs := rest, dev := { s.dev with known := false } }) ∨
      (∃ rest, s.inputs = .terminate :: rest ∧ t = { s with inputs := rest }.cutRun) ∨
      (∃ selector prog rest, s.inputs = .invoke selector prog :: rest ∧
        t = { s with inputs := rest }.startProgram selector prog) ∨
      (s.inputs = [] ∧ harnessStep s = .next t) ∨
      (∃ rest, s.inputs = .quiet :: rest ∧ harnessStep { s with inputs := rest } = .next t) := by
  unfold step machineStep at h
  split at h
  · rename_i hi; exact .inr (.inr (.inr (.inl ⟨hi, h⟩)))
  · rename_i rest hi; exact .inr (.inr (.inr (.inr ⟨rest, hi, h⟩)))
  · rename_i rest hi; cases h; exact .inl ⟨rest, hi, rfl⟩
  · rename_i rest hi; cases h; exact .inr (.inl ⟨rest, hi, rfl⟩)
  · rename_i selector prog rest hi; cases h; exact .inr (.inr (.inl ⟨selector, prog, rest, hi, rfl⟩))

end Sys2Proof.Machine
end

