-- ==== Sys2Proof/Laws/Harness.lean ====
section
/-! SUPPORT. Placing a descriptor where the next step takes it, and which of the state's parts a transfer leaves alone. -/

namespace Sys2Proof.Machine

/-- A transfer changes the oracle, the device and the log alone. -/
theorem Transferred.frame {s t : State} (h : Transferred s t) :
    t.params = s.params ∧ t.prog = s.prog ∧ t.selector = s.selector ∧ t.pc = s.pc ∧ t.res = s.res ∧ t.status = s.status ∧
      t.handle = s.handle ∧ t.inputs = s.inputs ∧ t.cutOff = s.cutOff := by
  cases h <;> exact ⟨rfl, rfl, rfl, rfl, rfl, rfl, rfl, rfl, rfl⟩

/-- A transfer appends at most one event, and it is a read or a write. -/
theorem Transferred.log_cases {s t : State} (h : Transferred s t) :
    t = s ∨ ∃ ev, isTransfer ev = true ∧ t.log = s.log ++ [ev] := by
  cases h with
  | none => exact .inl rfl
  | read o off w index outcome => exact .inr ⟨_, rfl, rfl⟩
  | write o off n index bs outcome h => exact .inr ⟨_, rfl, rfl⟩

/-- A placed descriptor stands at its place. -/
theorem getElem?_placeAt (prog : List Descriptor) (n : Nat) (d : Descriptor) : (placeAt prog n d)[n]? = some d := by
  unfold placeAt
  rw [List.getElem?_set_self (by simp; omega)]

/-- The default parameters are well-formed, whatever the OPEN ones are. -/
theorem paramsOk_defaultParams : paramsOk defaultParams = true := by decide

/-- The very next step runs the placed descriptor's operation. -/
theorem step_placeDescriptor {s : State} {d : Descriptor} {i : Instr} (h : decode d = .ok i) :
    step (placeDescriptor s d) = exec i (placeDescriptor s d) := by
  have hp : paramsOk (placeDescriptor s d).params = true := by
    unfold placeDescriptor
    simp only
    split
    · assumption
    · exact paramsOk_defaultParams
  have hg : (placeDescriptor s d).prog[(placeDescriptor s d).pc]? = some d := getElem?_placeAt s.prog s.pc d
  have hlt : (placeDescriptor s d).pc < (placeDescriptor s d).prog.length := (List.getElem?_eq_some_iff.mp hg).1
  change (if paramsOk (placeDescriptor s d).params then runOperation (placeDescriptor s d) else _) = _
  rw [if_pos hp, runOperation, if_neg (by omega), hg]
  simp only [h]

end Sys2Proof.Machine
end

