-- ==== Sys2Proof/Laws/PerInstr.lean ====
section
/-! SUPPORT. Families of statements about every instruction as syntax, one lemma per constructor. -/

namespace Sys2Proof.Laws

open Sys2Proof.Machine

/-- R72, R80: in the selector of a well-formed instruction, `op[3]` is set exactly for a reserved one, and otherwise
`op[2]` is set exactly where the operation reaches the device. -/
def SelectorBits.Statement (i : Instr) : Prop :=
  i.wellFormed = true → (encode i).op.getLsbD 3 = isReserved i ∧
    (isReserved i = false → (encode i).op.getLsbD 2 = reachesTransport i)

theorem SelectorBits.pack (v : Arg Word) (w : Arg Nat) : SelectorBits.Statement (.pack v w) := by
  simp [SelectorBits.Statement, encode, isReserved, reachesTransport]
theorem SelectorBits.unpack (bs : Arg (List Byte)) (w : Arg Nat) : SelectorBits.Statement (.unpack bs w) := by
  simp [SelectorBits.Statement, encode, isReserved, reachesTransport]
theorem SelectorBits.ledDecode (raw : Arg Word) : SelectorBits.Statement (.ledDecode raw) := by
  simp [SelectorBits.Statement, encode, isReserved, reachesTransport]
theorem SelectorBits.ledEncode (c : Arg LedConfiguration) : SelectorBits.Statement (.ledEncode c) := by
  simp [SelectorBits.Statement, encode, isReserved, reachesTransport]
theorem SelectorBits.dsRead : SelectorBits.Statement .dsRead := by
  simp [SelectorBits.Statement, encode, isReserved, reachesTransport]
theorem SelectorBits.dsWrite (c : Arg LedConfiguration) : SelectorBits.Statement (.dsWrite c) := by
  simp [SelectorBits.Statement, encode, isReserved, reachesTransport]
theorem SelectorBits.dsReadRaw (off w : Arg Nat) : SelectorBits.Statement (.dsReadRaw off w) := by
  simp [SelectorBits.Statement, encode, isReserved, reachesTransport]
theorem SelectorBits.dsWriteRaw (off w : Arg Nat) (v : Arg Word) : SelectorBits.Statement (.dsWriteRaw off w v) := by
  simp [SelectorBits.Statement, encode, isReserved, reachesTransport]
theorem SelectorBits.reserved (op : BitVec 4) (operands : List OperandVal) :
    SelectorBits.Statement (.reserved op operands) := fun h => ⟨h, fun hr => Bool.noConfusion hr⟩

end Sys2Proof.Laws
end

