-- ==== Sys2Proof/Tests/Slice0.lean ====
section
/-! SUPPORT. Tests, whose expected results are the vectors of spec/95_test_vectors.md (named at each) or read from the
rule cited, and for each statement with hypotheses a theorem that shows states and operands meeting them. -/

namespace Sys2Proof.Machine

/-! ### The bench -/

/-- The default parameters on one of the two variants, every OPEN one given a value. -/
def benchParams (has : Bool) : Params :=
  { defaultParams with
    has2500m := has, plaBase := 0x100, blinkDuration := ⟨0, 0, 0⟩, transportTimeout := 0, vid := 1, pid := 2 }

/-- The table of the vectors T-ALT: the default one with pattern 0 undefined. -/
def altParams : Params := { benchParams false with bdTable := none :: defaultTable.tail }

/-- A Running state with the device open, under given parameters and with given answers of the transport. -/
def bench (p : Params) (reads : List ReadDraw) (writes : List WriteOutcome) (dev : DevState) : State :=
  { State.reset with
    params := p, selector := .vendorProduct 1 2, handle := .opened, dev := dev
    log := [.opening (.vendorProduct 1 2) .handle], oracle := ⟨[], reads, writes, 0⟩ }

/-- The bench of the vectors: 2500M absent, no transfer, the LED register known to hold the example word. -/
def plain : State := bench (benchParams false) [] [] ⟨0x000E0087, true⟩

/-- What of an outcome a test looks at. -/
def view {α : Type} (f : State → α) (o : Host.Outcome State Fault Refusal) : Option α :=
  match o with
  | .next s => some (f s)
  | .fault _ => none
  | .refused _ => none

/-- A configuration with every LED off. -/
def allOff (iv : Interval) (d : Nat) : LedConfiguration := ⟨⟨.off, .off, .off⟩, iv, d⟩

/-- A configuration that asks for the 2500M trigger of LED 0. -/
def asks2500 : LedConfiguration := ⟨⟨{ LedSetting.off with link2500 := true }, .off, .off⟩, .fixed0, 125⟩

/-! ### The descriptor -/

/-- R80: a reserved row stands for a selector with bit 3 set, and for no other. -/
theorem test_wellFormed_reserved :
    (Instr.reserved 0b0011 []).wellFormed = false ∧ (Instr.reserved 0b1000 []).wellFormed = true := by decide

/-- R71: the selector of each row, bit by bit. -/
theorem test_decode_rows :
    decode ⟨0b0000, [.u32 0x1234, .width 16]⟩ = .ok (.pack (.lit 0x1234) (.lit 16)) ∧
      decode ⟨0b0001, [.bytes [0x34, 0x12], .width 16]⟩ = .ok (.unpack (.lit [0x34, 0x12]) (.lit 16)) ∧
      decode ⟨0b0010, [.res]⟩ = .ok (.ledDecode .res) ∧
      decode ⟨0b0011, [.res]⟩ = .ok (.ledEncode .res) ∧
      decode ⟨0b0100, []⟩ = .ok .dsRead ∧
      decode ⟨0b0101, [.config exampleConfig]⟩ = .ok (.dsWrite (.lit exampleConfig)) ∧
      decode ⟨0b0110, [.offset 0xdd92, .width 16]⟩ = .ok (.dsReadRaw (.lit 0xdd92) (.lit 16)) ∧
      decode ⟨0b0111, [.offset 0xdd90, .width 8, .res]⟩ = .ok (.dsWriteRaw (.lit 0xdd90) (.lit 8) .res) ∧
      decode ⟨0b1111, []⟩ = .ok (.reserved 0b1111 []) := by decide

/-- R71: a tuple of another length or type is no tuple of the row. -/
theorem test_decode_refuses :
    decode ⟨0b0100, [.res]⟩ = .error .operandCount ∧ decode ⟨0b0011, [.u32 0]⟩ = .error .operandShape := by decide

/-- LOG 1: what a word of the opcode table decodes to. -/
theorem test_decodeTableWord :
    decodeTableWord 8 0x0 = some (.pack (.lit 0) (.lit 0)) ∧ decodeTableWord 8 0x1 = some (.unpack (.lit []) (.lit 0)) ∧
      decodeTableWord 8 0x2 = some (.ledDecode (.lit 0)) ∧ decodeTableWord 8 0x3 = some (.ledEncode (.lit zeroConfig)) ∧
      decodeTableWord 8 0x4 = some .dsRead ∧ decodeTableWord 8 0x5 = some (.dsWrite (.lit zeroConfig)) ∧
      decodeTableWord 8 0x6 = some (.dsReadRaw (.lit 0) (.lit 0)) ∧
      decodeTableWord 8 0x7 = some (.dsWriteRaw (.lit 0) (.lit 0) (.lit 0)) ∧
      decodeTableWord 8 0x8 = some (.reserved 8 []) ∧ decodeTableWord 8 0xF = some (.reserved 15 []) := by decide

/-- LOG 2: the step after `withFetchWord` runs the word's operation. -/
theorem test_withFetchWord (s : State) (n w : Nat) (i : Instr) (h : decode (tableDescriptor w) = .ok i) :
    step (s.withFetchWord n w) = exec i (s.withFetchWord n w) := step_placeDescriptor h

/-! ### The operations, one or two vectors each -/

/-- PK2. -/
theorem test_pack_32 :
    view State.res (exec (.pack (.lit 0x12345678) (.lit 32)) plain) = some (some (.bytes [0x78, 0x56, 0x34, 0x12])) := by
  decide

/-- PK9, PK13: refused, not truncated; the width is checked before the value. -/
theorem test_pack_stops :
    view State.status (exec (.pack (.lit 0x1FF) (.lit 8)) plain) = some (.refused .valueTooWide) ∧
      view State.status (exec (.pack (.lit 0x100) (.lit 12)) plain) = some (.error .unsupportedWidth) := by decide

/-- UP2, UP5: byte order, and no sign extension. -/
theorem test_unpack :
    view State.res (exec (.unpack (.lit [0x78, 0x56, 0x34, 0x12]) (.lit 32)) plain) = some (some (.u32 0x12345678)) ∧
      view State.res (exec (.unpack (.lit [0x00, 0x80]) (.lit 16)) plain) = some (some (.u32 0x8000)) := by decide

/-- UP7, UP12: too long, not truncated; the width is checked before the length. -/
theorem test_unpack_stops :
    view State.status (exec (.unpack (.lit [0x34, 0x12]) (.lit 8)) plain) = some (.error .invalidWidth) ∧
      view State.status (exec (.unpack (.lit [0x01]) (.lit 7)) plain) = some (.error .unsupportedWidth) := by decide

/-- V1, and the 2500M bits ignored on a variant without them (R132). -/
theorem test_ledDecode_example :
    view State.res (exec (.ledDecode (.lit 0x000e0087)) plain) = some (some (.config exampleConfig)) ∧
      view State.res (exec (.ledDecode (.lit 0x00700000)) plain) = some (some (.config (allOff .fixed0 125))) := by decide

/-- ALT1: an undefined pattern gives the sentinel pair. -/
theorem test_ledDecode_sentinel :
    view State.res (exec (.ledDecode (.lit 0)) (bench altParams [] [] ⟨0, false⟩)) =
      some (some (.config (allOff .linkSpeedDependent 500))) := by decide

/-- R140's example, and EN16. -/
theorem test_ledEncode_example :
    view State.res (exec (.ledEncode (.lit exampleConfig)) plain) = some (some (.u32 0x000e0087)) ∧
      view State.res (exec (.ledEncode (.lit (allOff .fixed0 500))) plain) = some (some (.u32 0x00020000)) := by decide

/-- EN12: 499 is not rounded; ALT3: no pattern; and 2500M asked of a variant without it (R142). -/
theorem test_ledEncode_stops :
    view State.status (exec (.ledEncode (.lit (allOff .linkSpeedDependent 499))) plain) =
        some (.error .unsupportedConfiguration) ∧
      view State.status (exec (.ledEncode (.lit (allOff .fixed0 125))) (bench altParams [] [] ⟨0, false⟩)) =
        some (.error .unsupportedConfiguration) ∧
      view State.status (exec (.ledEncode (.lit asks2500)) plain) = some (.error .unsupportedConfiguration) := by decide

/-- DS1, with its event. -/
theorem test_dsRead_known :
    view State.res (exec .dsRead (bench (benchParams false) [.ok 4 0xFFFFFFFF] [] ⟨0x000E0087, true⟩)) =
        some (some (.config exampleConfig)) ∧
      view (fun s => s.log.getLast?) (exec .dsRead (bench (benchParams false) [.ok 4 0] [] ⟨0x000E0087, true⟩)) =
        some (some (.read 0xdd90 32 0x1FF (.ok 4 [0x87, 0x00, 0x0E, 0x00]))) := by decide

/-- DS3, DS4: a short read, and a timeout. -/
theorem test_dsRead_stops :
    view State.status (exec .dsRead (bench (benchParams false) [.ok 3 0x000E0087] [] ⟨0, true⟩)) =
        some (.error .invalidWidth) ∧
      view State.status (exec .dsRead (bench (benchParams false) [.err .timeout] [] ⟨0, true⟩)) =
        some (.error .transportTimeout) := by decide

/-- DS5. -/
theorem test_dsWrite_clean :
    view State.dev (exec (.dsWrite (.lit exampleConfig)) (bench (benchParams false) [] [.ok 4] ⟨0, false⟩)) =
        some ⟨0x000E0087, true⟩ ∧
      view (fun s => s.log.getLast?)
          (exec (.dsWrite (.lit exampleConfig)) (bench (benchParams false) [] [.ok 4] ⟨0, false⟩)) =
        some (some (.write 0xdd90 32 0x1FF [0x87, 0x00, 0x0E, 0x00] (.ok 4))) := by decide

/-- DS7: a short write leaves the register unknown; DS6: no transfer. -/
theorem test_dsWrite_stops :
    view (fun s => (s.status, s.dev.known))
        (exec (.dsWrite (.lit exampleConfig)) (bench (benchParams false) [] [.ok 2] ⟨0x000E0087, true⟩)) =
        some (.error .transportError, false) ∧
      view (fun s => (s.status, s.dev.known, s.log.length)) (exec (.dsWrite (.lit (allOff .linkSpeedDependent 333))) plain) =
        some (.error .unsupportedConfiguration, true, 1) := by decide

/-- DS11, DS14. -/
theorem test_dsReadRaw :
    view State.res (exec (.dsReadRaw (.lit 0xdd90) (.lit 32))
        (bench (benchParams false) [.ok 4 0xFFFFFFFF] [] ⟨0x12345678, true⟩)) = some (some (.u32 0xFAF4F678)) ∧
      view State.res (exec (.dsReadRaw (.lit 0xdd92) (.lit 16)) (bench (benchParams false) [.ok 2 0x2211] [] ⟨0, true⟩)) =
        some (some (.u32 0x2211)) := by decide

/-- DS13, DS15, DS17: misaligned, out of range, and the width first. -/
theorem test_dsReadRaw_stops :
    view State.status (exec (.dsReadRaw (.lit 0xdd91) (.lit 16)) plain) = some (.refused .misaligned) ∧
      view State.status (exec (.dsReadRaw (.lit 0x10000) (.lit 8)) plain) = some (.refused .offsetRange) ∧
      view State.status (exec (.dsReadRaw (.lit 0x10000) (.lit 24)) plain) = some (.error .unsupportedWidth) := by decide

/-- DS22, DS20: a narrow write, and a write elsewhere, leave the LED register unknown. -/
theorem test_dsWriteRaw :
    view (fun s => (s.log.getLast?, s.dev.known)) (exec (.dsWriteRaw (.lit 0xdd93) (.lit 8) (.lit 0xAB))
        (bench (benchParams false) [] [.ok 1] ⟨0x000E0087, true⟩)) =
        some (some (.write 0xdd93 8 0x111 [0xAB] (.ok 1)), false) ∧
      view (fun s => s.dev.known) (exec (.dsWriteRaw (.lit 0x1234) (.lit 32) (.lit 1))
        (bench (benchParams false) [] [.ok 4] ⟨0x000E0087, true⟩)) = some false := by decide

/-- DS18, DS23. -/
theorem test_dsWriteRaw_stops :
    view State.status (exec (.dsWriteRaw (.lit 0xdd90) (.lit 8) (.lit 0x100)) plain) = some (.refused .valueTooWide) ∧
      view State.status (exec (.dsWriteRaw (.lit 0xdd92) (.lit 32) (.lit 0)) plain) = some (.refused .misaligned) := by decide

/-- H5. -/
theorem test_reserved :
    view (fun s => (s.status, s.pc)) (exec (.reserved 0x9 []) plain) = some (.refused .illegalOperation, 0) := by decide

/-- H1: an empty program opens the device and is done. -/
theorem test_empty_program :
    view (fun s => (s.status, s.log)) (step { plain with handle := .closed, log := [], oracle := ⟨[.handle], [], [], 0⟩ }) =
      some (.done, [.opening (.vendorProduct 1 2) .handle]) := by decide

/-- H4: `res` holds a u32, not Bytes. -/
theorem test_res_of_wrong_type :
    view (fun s => (s.status, s.res)) (step { plain with
      prog := [⟨0x3, [.config exampleConfig]⟩, ⟨0x1, [.res, .width 32]⟩], pc := 1, res := some (.u32 0x000E0087) }) =
      some (.refused .operandType, some (.u32 0x000E0087)) := by decide

/-- H7: `MultipleMatches` cannot be drawn for a bus address. -/
theorem test_open_by_address :
    view (fun s => (s.status, s.log)) (step { plain with
      selector := .busAddress 1 5, handle := .closed, log := [], oracle := ⟨[.multipleMatches], [], [], 0⟩ }) =
      some (.error .deviceNotFound, [.opening (.busAddress 1 5) .deviceNotFound]) := by decide

/-! ### Witnesses: states and operands that meet a statement's hypotheses, one theorem for each statement -/

/-- A Running state under well-formed parameters with a result of each kind the operands can name. -/
def holding (v : Value) : State := { plain with res := some v, pc := 1, prog := [⟨0x4, []⟩] }

/-- An outcome that is seen is a next state. -/
theorem next_of_view {o : Host.Outcome State Fault Refusal} (h : view (fun _ => true) o = some true) : ∃ t, o = .next t := by
  cases o with
  | next t => exact ⟨t, rfl⟩
  | fault _ => cases h
  | refused _ => cases h

/-- A state whose next step runs `i`. -/
def about (i : Instr) : State := { plain with prog := [encode i] }

theorem witness_DescriptorDecodeInvertsEncode :
    (Instr.reserved 0b1000 [.res]).wellFormed = true ∧ (Instr.dsWriteRaw .res (.lit 24) .res).wellFormed = true := by decide

theorem witness_DescriptorEncodeInvertsDecode :
    decode ⟨0b0111, [.offset 0x10000, .res, .u32 1]⟩ = .ok (.dsWriteRaw (.lit 0x10000) .res (.lit 1)) := by decide

theorem witness_ReservedSelectorsNeverFallThrough :
    (0b1000 : BitVec 4).getLsbD 3 = true ∧ (0b1111 : BitVec 4).getLsbD 3 = true ∧ (0b0111 : BitVec 4).getLsbD 3 = false ∧
      decode ⟨0b0100, []⟩ = .ok .dsRead := by decide

theorem witness_PackGivesLittleEndianBytes :
    DenotesU32 (.lit 0x100) plain 0x100 ∧ DenotesU32 .res (holding (.u32 0xFF)) 0xFF ∧ 24 ∉ [8, 16, 32] ∧ 0 ∉ [8, 16, 32] ∧
      8 ∈ [8, 16, 32] ∧ 2 ^ 8 ≤ (0x100 : Word).toNat ∧ (0xFF : Word).toNat < 2 ^ 8 ∧ (0xFFFFFFFF : Word).toNat < 2 ^ 32 :=
  ⟨.inl rfl, .inr ⟨rfl, rfl⟩, by decide⟩

theorem witness_UnpackGivesUnsignedValue :
    DenotesBytes (.lit [0xFF]) plain [0xFF] ∧ DenotesBytes .res (holding (.bytes [])) [] ∧ 24 ∉ [8, 16, 32] ∧ 8 ∈ [8, 16, 32] ∧
      ([] : List Byte).length ≠ 8 / 8 ∧ ([0xFF] : List Byte).length = 8 / 8 :=
  ⟨.inl rfl, .inr ⟨rfl, rfl⟩, by decide⟩

theorem witness_UnpackAfterPackGivesValue : 16 ∈ [8, 16, 32] ∧ (0xFFFF : Word).toNat < 2 ^ 16 := by decide

theorem witness_PackAfterUnpackGivesBytes :
    32 ∈ [8, 16, 32] ∧ ([1, 2, 3, 4] : List Byte).length = 32 / 8 ∧ 64 ∉ [8, 16, 32] := by decide

/-- The two variants of the decided default, with the OPEN parameters left open. -/
theorem witness_LedDecodeReadsDefaultBitMap :
    DenotesU32 (.lit 0x07FFFFFF) plain 0x07FFFFFF ∧
      { State.reset with params := { defaultParams with has2500m := true } }.params =
        { defaultParams with has2500m := true } ∧
      { State.reset with params := { defaultParams with has2500m := false } }.params =
        { defaultParams with has2500m := false } := ⟨.inl rfl, rfl, rfl⟩

theorem witness_LedDecodeReadsParameterFields :
    DenotesU32 .res (holding (.u32 0x000F0000)) 0x000F0000 ∧
      bdEntry (benchParams true) (bdPattern (benchParams true) 0x000F0000) = some (.linkSpeedDependent, 750) ∧
      bdEntry altParams (bdPattern altParams 0x00000087) = none := ⟨.inr ⟨rfl, rfl⟩, by decide⟩

theorem witness_LedDecodeIgnoresReservedBits :
    paramsOk plain.params = true ∧ (0xF8F0F000 : Word) &&& reservedMask plain.params = 0xF8F0F000 := by decide

theorem witness_DecodedConfigurationsEncode :
    paramsOk plain.params = true ∧ plain.params.has2500m = false ∧ paramsOk altParams = true := by decide

theorem witness_LedEncodeWritesDefaultBitMap :
    DenotesConfig (.lit exampleConfig) plain exampleConfig ∧
      { State.reset with params := { defaultParams with has2500m := false } }.params =
        { defaultParams with has2500m := false } ∧
      (allOff .fixed0 0).dutyPermille ∉ [125, 250, 500, 750] ∧ (asks2500.leds.get 0).link2500 = true ∧
      exampleConfig.dutyPermille ∈ [125, 250, 500, 750] ∧ ∀ i : Fin 3, (exampleConfig.leds.get i).link2500 = false :=
  ⟨.inl rfl, rfl, by decide, rfl, by decide, by decide⟩

theorem witness_LedEncodeFailsExactlyWhenUnsupported :
    DenotesConfig .res (holding (.config asks2500)) asks2500 ∧
      (∀ pattern, pattern < 16 → bdEntry plain.params pattern ≠ some (.fixed0, 333)) ∧
      plain.params.has2500m = false ∧ (asks2500.leds.get 0).link2500 = true ∧
      ¬ ((∀ pattern, pattern < 16 → bdEntry plain.params pattern ≠ some (exampleConfig.blinkInterval, 500)) ∨
        plain.params.has2500m = false ∧ ∃ i : Fin 3, (exampleConfig.leds.get i).link2500 = true) :=
  ⟨.inr ⟨rfl, rfl⟩, by decide, rfl, rfl, by decide⟩

/-- LED_ENCODE of the example configuration completes on the bench. -/
theorem bench_encodes : paramsOk plain.params = true ∧
    exec (.ledEncode (.lit exampleConfig)) plain =
      .next { plain with res := some (.u32 0x000e0087), pc := plain.pc + 1 } := ⟨by decide, by rfl⟩

theorem witness_LedEncodeClearsReservedBits : paramsOk plain.params = true ∧
    exec (.ledEncode (.lit exampleConfig)) plain =
      .next { plain with res := some (.u32 0x000e0087), pc := plain.pc + 1 } := bench_encodes

theorem witness_LedDecodeInvertsEncode : paramsOk plain.params = true ∧
    exec (.ledEncode (.lit exampleConfig)) plain =
      .next { plain with res := some (.u32 0x000e0087), pc := plain.pc + 1 } := bench_encodes

/-- The undefined pattern of the third clause is reached under the alternative table. -/
theorem witness_LedEncodeAfterDecodeNormalises :
    paramsOk plain.params = true ∧ (bdEntry plain.params (bdPattern plain.params 0xFFFFFFFF)).isSome = true ∧
      paramsOk altParams = true ∧ bdEntry altParams (bdPattern altParams 0xFFF0FFFF) = none := by decide

/-- The example configuration's LED 2 is off and its LED 1 has only the activity trigger; the example word has their bits. -/
theorem witness_OffAndActivityOnlyLedsAreStable : paramsOk plain.params = true ∧
    exec (.ledEncode (.lit exampleConfig)) plain =
      .next { plain with res := some (.u32 0x000e0087), pc := plain.pc + 1 } ∧
    exampleConfig.leds.get 2 = .off ∧ exampleConfig.leds.get 1 = { LedSetting.off with activity := .allSpeeds } ∧
    (∀ i : Fin 3, exampleWord.getLsbD (plain.params.bit2500m.get i) = false ∧
      exampleWord.getLsbD (plain.params.bitAlow.get i) = false) ∧
    exampleWord.extractLsb' (plain.params.nibOff.get 2) 4 = 0b0000 ∧
    exampleWord.extractLsb' (plain.params.nibOff.get 1) 4 = 0b1000 :=
  ⟨bench_encodes.1, bench_encodes.2, rfl, rfl, by decide⟩

theorem witness_ExampleWordDecodes : paramsOk plain.params = true ∧ paramsOk altParams = true := by decide

theorem witness_ExampleFixesNibbleLayout : paramsOk { benchParams true with nibOff := ⟨0, 4, 12⟩ } = true := by decide

/-- P6: the merge of the example word with 0x8000F123. -/
theorem witness_MergeKeepsReservedBitsAndFields : paramsOk plain.params = true ∧
    exec (.ledEncode (.lit exampleConfig)) plain =
      .next { plain with res := some (.u32 0x000e0087), pc := plain.pc + 1 } ∧
    mergeReserved plain.params 0x000e0087 0x8000F123 = 0x800EF087 ∧
    ∃ v, exec (.ledDecode (.lit (mergeReserved plain.params 0x000e0087 0x8000F123))) (holding .unit) = .next v ∧
      (holding .unit).params = plain.params := ⟨bench_encodes.1, bench_encodes.2, by decide, _, rfl, rfl⟩

/-- A failed read, a short one and a complete one, the last with each state of the device. -/
theorem witness_DsReadOutcomes :
    (drawRead (bench (benchParams true) [.err .failure] [] ⟨0, false⟩).oracle).1 = .err .failure ∧
      (drawRead (bench (benchParams true) [.ok 0 1] [] ⟨0, false⟩).oracle).1 = .ok 0 1 ∧
      (drawRead (bench (benchParams true) [.ok 3 1] [] ⟨0, false⟩).oracle).1 = .ok 3 1 ∧
      (drawRead (bench (benchParams true) [.ok 4 1] [] ⟨0, false⟩).oracle).1 = .ok 4 1 ∧
      (0x000e0087 : Word) &&& reservedMask (benchParams true) = 0 ∧
      (0x800e0087 : Word) &&& reservedMask (benchParams true) ≠ 0 := by decide

theorem witness_DsWriteOutcomes :
    DenotesConfig (.lit exampleConfig) plain exampleConfig ∧
      bdEntry plain.params 14 = some (exampleConfig.blinkInterval, exampleConfig.dutyPermille) ∧
      (plain.params.has2500m = false → ∀ i : Fin 3, (exampleConfig.leds.get i).link2500 = false) ∧
      (drawWrite (bench (benchParams false) [] [.err .timeout] ⟨0, true⟩).oracle).1 = .err .timeout ∧
      (drawWrite (bench (benchParams false) [] [.ok 3] ⟨0, true⟩).oracle).1 = .ok 3 ∧
      (drawWrite (bench (benchParams false) [] [.ok 4] ⟨0, true⟩).oracle).1 = .ok 4 :=
  ⟨.inl rfl, by decide, by decide, by decide, by decide, by decide⟩

theorem witness_DsWriteRejectsBeforeTransfer :
    DenotesConfig (.lit asks2500) plain asks2500 ∧ plain.params.has2500m = false ∧ (asks2500.leds.get 0).link2500 = true ∧
      (∀ pattern, pattern < 16 → bdEntry plain.params pattern ≠ some (.linkSpeedDependent, 333)) :=
  ⟨.inl rfl, rfl, rfl, by decide⟩

/-- Each check's boundary: the last offset admitted and the first refused, the first value too wide. -/
theorem witness_RawAccessChecksComeFirst :
    DenotesU32 (.lit 0x100) plain 0x100 ∧ 24 ∉ [8, 16, 32] ∧ 8 ∈ [8, 16, 32] ∧ 2 ^ plain.params.offsetBits ≤ 0x10000 ∧
      0xFFFF < 2 ^ plain.params.offsetBits ∧ 0xFFFF % (16 / 8) ≠ 0 ∧ 0xFFFF % (8 / 8) = 0 ∧ 2 ^ 8 ≤ (0x100 : Word).toNat :=
  ⟨.inl rfl, by decide⟩

theorem witness_DsReadRawOutcomes :
    (32 ∈ [8, 16, 32] ∧ 0xdd90 < 2 ^ (benchParams true).offsetBits ∧ 0xdd90 % (32 / 8) = 0 ∧ 0xdd90 = (benchParams true).ledReg) ∧
      (8 ∈ [8, 16, 32] ∧ 0xFFFF < 2 ^ (benchParams true).offsetBits ∧ 0xFFFF % (8 / 8) = 0) ∧
      (drawRead (bench (benchParams true) [.err .timeout] [] ⟨0, false⟩).oracle).1 = .err .timeout ∧
      (drawRead (bench (benchParams true) [.ok 0 1] [] ⟨0, false⟩).oracle).1 = .ok 0 1 ∧
      (drawRead (bench (benchParams true) [.ok 4 1] [] ⟨0x80000000, true⟩).oracle).1 = .ok 4 1 ∧
      (0x000e0087 : Word) &&& reservedMask (benchParams true) = 0 ∧
      (0x80000000 : Word) &&& reservedMask (benchParams true) ≠ 0 := by decide

theorem witness_DsWriteRawOutcomes :
    DenotesU32 .res (holding (.u32 0xFF)) 0xFF ∧ 8 ∈ [8, 16, 32] ∧ 0xFFFF < 2 ^ plain.params.offsetBits ∧ 0xFFFF % (8 / 8) = 0 ∧
      (0xFF : Word).toNat < 2 ^ 8 ∧
      (drawWrite (bench (benchParams false) [] [.err .timeout] ⟨0, true⟩).oracle).1 = .err .timeout ∧
      (drawWrite (bench (benchParams false) [] [.ok 0] ⟨0, true⟩).oracle).1 = .ok 0 ∧
      (drawWrite (bench (benchParams false) [] [.ok 1] ⟨0, true⟩).oracle).1 = .ok 1 := ⟨.inr ⟨rfl, rfl⟩, by decide⟩

/-- A write of the example configuration that ends Ok, and a later state with the device as it left it. -/
theorem witness_ReadAfterWriteGivesConfiguration :
    let s := bench (benchParams false) [] [.ok 4] ⟨0, false⟩
    let u := bench (benchParams false) [.ok 4 0xFFFFFFFF] [] ⟨0x000e0087, true⟩
    ∃ t, paramsOk s.params = true ∧ s.status = .running ∧ exec (.dsWrite (.lit exampleConfig)) s = .next t ∧
      t.status = .running ∧ u.params = s.params ∧ u.dev = t.dev ∧ (drawRead u.oracle).1 = .ok 4 0xFFFFFFFF :=
  ⟨_, by decide, rfl, rfl, rfl, rfl, by rfl, rfl⟩

/-- A raw write that ends Ok, and a later state with the device as it left it. -/
theorem witness_RawReadAfterRawWriteKeepsFieldBits :
    let s := bench (benchParams false) [] [.ok 4] ⟨0, false⟩
    let u := bench (benchParams false) [.ok 4 1] [] ⟨0x12345678, true⟩
    ∃ t, paramsOk s.params = true ∧ s.status = .running ∧
      exec (.dsWriteRaw (.lit s.params.ledReg) (.lit 32) (.lit 0x12345678)) s = .next t ∧
      t.status = .running ∧ u.params = s.params ∧ u.dev = t.dev ∧ (drawRead u.oracle).1 = .ok 4 1 ∧
      (0x000e0087 : Word) &&& reservedMask s.params = 0 :=
  ⟨_, by decide, rfl, rfl, rfl, rfl, by rfl, rfl, by decide⟩

theorem witness_IndexFieldFormula :
    (benchParams true).byteMask32 = 0xF ∧ (benchParams true).byteMask16 = 0x3 ∧ (benchParams true).byteMask8 = 0x1 ∧
      (benchParams true).plaBase % 256 = 0 := by decide

theorem witness_WrongOperandTypeRefused :
    (∀ v, plain.res ≠ some (.u32 v)) ∧ (∀ bs, (holding (.u32 0)).res ≠ some (.bytes bs)) ∧
      (∀ c, (holding .unit).res ≠ some (.config c)) := by
  simp [plain, bench, holding, State.reset]

theorem witness_OperationsKeepParametersAndProgram :
    ∃ t, exec .dsRead (bench (benchParams false) [.ok 4 1] [] ⟨0, true⟩) = .next t := ⟨_, rfl⟩

theorem witness_CodecOperationsReachNoDevice :
    (Instr.reserved 0b1100 []).wellFormed = true ∧ (encode (.reserved 0b1100 [])).op.getLsbD 3 = true ∧
      (encode (.ledEncode .res)).op.getLsbD 2 = false ∧ ∃ t, exec (.ledEncode (.lit exampleConfig)) plain = .next t :=
  ⟨by decide, by decide, by decide, _, rfl⟩

theorem witness_OneTransferPerOperation :
    plain.status = .running ∧ ∃ t, exec (.pack (.lit 0) (.lit 8)) plain = .next t := ⟨rfl, _, rfl⟩

/-- An operation without a write, one with a write elsewhere, and one with a complete write at `LED_REG`. -/
theorem witness_DeviceFollowsWrites :
    (∃ t, exec .dsRead (bench (benchParams true) [.ok 4 1] [] ⟨0, true⟩) = .next t) ∧
      isCompleteLedWrite (benchParams true) (.write 0x1234 32 0x1FF [1, 0, 0, 0] (.ok 4)) = false ∧
      isCompleteLedWrite (benchParams true) (.write 0xdd90 32 0x1FF [1, 0, 0, 0] (.ok 4)) = true ∧
      (∃ t, exec (.dsWriteRaw (.lit 0xdd90) (.lit 32) (.lit 1)) (bench (benchParams true) [] [.ok 4] ⟨0, true⟩) = .next t ∧
        t.log = (bench (benchParams true) [] [.ok 4] ⟨0, true⟩).log ++ [.write 0xdd90 32 0x1FF [1, 0, 0, 0] (.ok 4)]) ∧
      ∃ t, exec (.dsWriteRaw (.lit 0x1234) (.lit 32) (.lit 1)) (bench (benchParams true) [] [.ok 4] ⟨0, true⟩) = .next t ∧
        t.log = (bench (benchParams true) [] [.ok 4] ⟨0, true⟩).log ++ [.write 0x1234 32 0x1FF [1, 0, 0, 0] (.ok 4)] :=
  ⟨⟨_, rfl⟩, by decide, by decide, ⟨_, rfl, by rfl⟩, _, rfl, by rfl⟩

theorem witness_RepeatedWriteIsIdempotent :
    let s := bench (benchParams true) [] [.ok 4] ⟨0, false⟩
    let u := bench (benchParams true) [] [.ok 4] ⟨0x12345678, true⟩
    ∃ t v, s.status = .running ∧ exec (.dsWriteRaw (.lit s.params.ledReg) (.lit 32) (.lit 0x12345678)) s = .next t ∧
      t.status = .running ∧ u.params = s.params ∧ u.dev = t.dev ∧ u.status = .running ∧
      exec (.dsWriteRaw (.lit s.params.ledReg) (.lit 32) (.lit 0x12345678)) u = .next v ∧ v.status = .running :=
  ⟨_, _, rfl, rfl, rfl, rfl, by rfl, rfl, rfl, rfl⟩

/-- An operation that ends in an error, and one that is refused. -/
theorem witness_ErrorsAndRefusalsByTable : plain.status = .running ∧
    (∃ t, exec (.pack (.lit 0) (.lit 24)) plain = .next t ∧ t.status = .error .unsupportedWidth) ∧
    ∃ t, exec (.pack (.lit 0x100) (.lit 8)) plain = .next t ∧ t.status = .refused .valueTooWide :=
  ⟨rfl, ⟨_, rfl, by rfl⟩, _, rfl, by rfl⟩

theorem witness_StepRunsDecodedOperation :
    (about .dsRead).inputs = [] ∧ (about .dsRead).cutOff = false ∧ (about .dsRead).status = .running ∧
      paramsOk (about .dsRead).params = true ∧ (about .dsRead).handle = .opened ∧
      (about .dsRead).prog[(about .dsRead).pc]? = some ⟨0b0100, []⟩ ∧ decode ⟨0b0100, []⟩ = .ok .dsRead := by decide

/-- The reset state meets the common hypotheses; each outcome of the open is an answer of the transport. -/
theorem witness_PrologueOpensDevice :
    (State.reset.inputs = [] ∧ State.reset.cutOff = false ∧ State.reset.status = .running ∧
      paramsOk State.reset.params = true ∧ State.reset.handle = .closed) ∧
      openOutcome (.vendorProduct 1 2) (drawOpen ⟨[.handle], [], [], 0⟩).1 = .handle ∧
      openOutcome (.busAddress 1 5) (drawOpen ⟨[.deviceNotFound], [], [], 0⟩).1 = .deviceNotFound ∧
      openOutcome (.vendorProduct 1 2) (drawOpen ⟨[.multipleMatches], [], [], 0⟩).1 = .multipleMatches :=
  ⟨⟨rfl, rfl, rfl, paramsOk_defaultParams, rfl⟩, rfl, rfl, rfl⟩

theorem witness_RunEndsAfterLastOperation :
    plain.inputs = [] ∧ plain.cutOff = false ∧ plain.status = .running ∧ paramsOk plain.params = true ∧
      plain.handle = .opened ∧ plain.pc = plain.prog.length := by decide

theorem witness_NoStepAfterTheRun :
    ({ plain with handle := .closed, status := .error .transportError }.inputs = [] ∧
        { plain with handle := .closed, status := .error .transportError }.status ≠ .running) ∧
      { plain with cutOff := true }.inputs = [] ∧ { plain with cutOff := true }.status = .running ∧
      { plain with cutOff := true }.cutOff = true := by decide

theorem witness_BadParamsRefused :
    let s := { plain with params := { benchParams true with nibOff := ⟨0, 3, 8⟩ } }
    s.inputs = [] ∧ s.cutOff = false ∧ s.status = .running ∧ paramsOk s.params = false := by decide

theorem witness_OutsideEventsAtBoundaries :
    { plain with inputs := [.powerCycle] }.inputs = .powerCycle :: [] ∧
      { plain with inputs := [.invoke (.busAddress 1 5) [⟨0x4, []⟩]] }.inputs = .invoke (.busAddress 1 5) [⟨0x4, []⟩] :: [] ∧
      { plain with inputs := [.terminate] }.inputs = .terminate :: [] ∧
      { plain with inputs := [.quiet] }.inputs = .quiet :: [] ∧ plain.inputs = [] := by decide

/-- A state after one transfer, with a step still to take. -/
theorem witness_StepKeepsConsistent :
    let s : State := { plain with
      prog := [⟨0x4, []⟩, ⟨0x2, [.u32 0]⟩], pc := 1, res := some (.config exampleConfig)
      log := [.opening (.vendorProduct 1 2) .handle, .read 0xdd90 32 0x1FF (.ok 4 [0x87, 0x00, 0x0E, 0x00])] }
    Consistent s ∧ ∃ t, step s = .next t :=
  ⟨⟨by decide, by decide, by decide, by decide, by decide, by decide,
    .inr ⟨.handle, [.read 0xdd90 32 0x1FF (.ok 4 [0x87, 0x00, 0x0E, 0x00])], rfl, by decide, by decide, nofun⟩,
    by decide, by decide⟩, next_of_view (by decide)⟩

theorem witness_StepKeepsParams : ∃ t, step { plain with inputs := [.powerCycle] } = .next t := ⟨_, rfl⟩

theorem witness_RunsEnd :
    let s := about .dsRead
    s.inputs = [] ∧ s.cutOff = false ∧ s.status = .running ∧ s.pc ≤ s.prog.length ∧
      ∀ d ∈ s.prog, ∃ i, decode d = .ok i :=
  ⟨rfl, rfl, rfl, by decide, fun _ h => ⟨.dsRead, by rw [List.mem_singleton.mp h]; rfl⟩⟩

theorem witness_CommandsExpand : paramsOk (benchParams true) = true := by decide

end Sys2Proof.Machine
end

section
/-! Proofs of the scope statements: how an operation ends (R10, R23, R208), what no operation and no step writes
(R6, R20, R22, R230), the refusal of bad parameters (R7, R203), and the reset state (R24, R231). -/

namespace Sys2Proof.Machine

/-! ### How an operation ends, and what it leaves alone -/

/-- The three ways of R23 to conclude an operation, told from the pc, res, status and handle they leave. -/
theorem State.conclude_three_outcomes (s : State) (r : Result Value) :
    (∃ v, (s.conclude r).res = some v) ∧ (s.conclude r).pc = s.pc + 1 ∧ (s.conclude r).status = s.status ∧
        (s.conclude r).handle = s.handle ∨
      (∃ e, (s.conclude r).status = .error e) ∧ (s.conclude r).handle = .closed ∧ (s.conclude r).pc = s.pc ∧
        (s.conclude r).res = s.res ∨
      (∃ q, (s.conclude r).status = .refused q) ∧ (s.conclude r).handle = .closed ∧ (s.conclude r).pc = s.pc ∧
        (s.conclude r).res = s.res := by
  rcases s.conclude_cases r with ⟨v, -, h⟩ | ⟨e, -, h⟩ | ⟨q, -, h⟩ <;> rw [h]
  · exact .inl ⟨⟨v, rfl⟩, rfl, rfl, rfl⟩
  · exact .inr (.inl ⟨⟨e, rfl⟩, rfl, rfl, rfl⟩)
  · exact .inr (.inr ⟨⟨q, rfl⟩, rfl, rfl, rfl⟩)

/-- Settles O35: an operation is at most one transfer, which touches none of the four fields, and then its conclusion. -/
theorem operationsEndInThreeOutcomes : Obligations.OperationsEndInThreeOutcomes := by
  intro i s
  obtain ⟨t, r, hexec, htransfer, -⟩ := exec_inversion i s
  obtain ⟨-, -, -, hpc, hres, hstatus, hhandle, -, -⟩ := htransfer.frame
  refine ⟨t.conclude r, hexec, ?_⟩
  rw [← hpc, ← hres, ← hstatus, ← hhandle]
  exact t.conclude_three_outcomes r

/-- Settles O36: neither the transfer of an operation nor its conclusion writes any of the five fields. -/
theorem operationsKeepParametersAndProgram : Obligations.OperationsKeepParametersAndProgram := by
  intro i s t h
  obtain ⟨u, r, hexec, htransfer, -⟩ := exec_inversion i s
  obtain ⟨hparams, hprog, hselector, -, -, -, -, hinputs, hcutOff⟩ := htransfer.frame
  obtain rfl : u.conclude r = t := by rw [hexec] at h; cases h; rfl
  simp [hparams, hprog, hselector, hinputs, hcutOff]

/-! ### Steps and the parameters -/

/-- The prologue's open keeps the parameters, whatever the transport answers. -/
@[simp] theorem openDevice_params (s : State) : (openDevice s).params = s.params := by
  obtain ⟨o, -, ⟨-, h⟩ | ⟨-, h⟩ | ⟨-, h⟩⟩ := openDevice_cases s <;> simp [h]

/-- A harness step keeps the parameters, on each of its ways to a next state. -/
theorem harnessStep_params {s t : State} (h : harnessStep s = .next t) : t.params = s.params := by
  obtain ⟨-, -, ⟨-, rfl⟩ | ⟨-, -, -, rfl⟩ | ⟨-, u, hu, hend⟩⟩ := harnessStep_cases h
  · rfl
  · exact openDevice_params s
  · have hparams : u.params = s.params := by
      rcases hu with ⟨-, rfl⟩ | ⟨-, -, rfl⟩ <;> simp
    rcases hend with ⟨-, rfl⟩ | ⟨d, i, -, -, hexec⟩
    · exact hparams
    · exact (operationsKeepParametersAndProgram i u t hexec).1.trans hparams

/-- Settles O51: an outside event writes other fields, and every other step is a harness step. -/
theorem stepKeepsParams : Obligations.StepKeepsParams := by
  intro s t h
  rcases step_cases h with ⟨rest, -, rfl⟩ | ⟨rest, -, rfl⟩ | ⟨selector, prog, rest, -, rfl⟩ | ⟨-, h⟩ | ⟨rest, -, h⟩
  · rfl
  · rfl
  · rfl
  · exact harnessStep_params h
  · exact (harnessStep_params h).trans rfl

/-! ### The refusal of bad parameters -/

/-- Where no outside event is due, the step is the harness's. -/
theorem step_of_inputs_nil {s : State} (h : s.inputs = []) : step s = harnessStep s := by
  simp [step, machineStep, h]

/-- R7, R203: in a run that is not cut off, the harness refuses bad parameters before the prologue. -/
theorem harnessStep_of_paramsOk_false {s : State} (hstatus : s.status = .running) (hcut : s.cutOff = false)
    (hparams : paramsOk s.params = false) : harnessStep s = .next (s.refuse .badParams) := by
  simp [harnessStep, hstatus, hcut, hparams]

/-- Settles O46: with no outside event due the step is the harness's, which refuses the parameters first. -/
theorem badParamsRefused : Obligations.BadParamsRefused := by
  intro s hinputs hcut hstatus hparams
  rw [step_of_inputs_nil hinputs]
  exact harnessStep_of_paramsOk_false hstatus hcut hparams

/-! ### Reset -/

/-- A state before its first step is consistent: it is Running with a closed handle at pc 0, with no result and an
empty log. -/
theorem consistent_of_fresh {s : State} (hpc : s.pc = 0) (hres : s.res = none) (hstatus : s.status = .running)
    (hhandle : s.handle = .closed) (hlog : s.log = []) : Consistent s where
  pc_le := by simp [hpc]
  released := fun _ => hhandle
  done_at_end := by simp [hstatus]
  res_none := by simp [hpc, hres]
  fresh := fun _ _ => ⟨hpc, hlog⟩
  opened := by simp [hhandle]
  log_ok := .inl hlog
  transfers := by simp [hlog]
  transfers_end := by simp [hlog]

/-- Settles O49: reset is such a fresh state, and its parameters are the decided default. -/
theorem resetConsistent : Obligations.ResetConsistent :=
  ⟨consistent_of_fresh rfl rfl rfl rfl rfl, paramsOk_defaultParams⟩

end Sys2Proof.Machine
end

section
/-! Proofs of the state statements: the default layout (R29, R31), operands of the wrong type (R23, R203), the harness
step of R23 with its prologue (R173), and the invariant that every step keeps (R22, R23, R172, R208, R231). -/

namespace Sys2Proof.Machine

/-! ### What a harness step is, by the state it is taken in -/

/-- Under the conditions of R23 and R7 a step is the prologue and the operation, with nothing else before it. -/
theorem step_eq_runWithHandle {s : State} (hinputs : s.inputs = []) (hcut : s.cutOff = false)
    (hstatus : s.status = .running) (hparams : paramsOk s.params = true) : step s = runWithHandle s := by
  rw [step_of_inputs_nil hinputs]
  simp [harnessStep, hstatus, hcut, hparams]

/-- With the handle open there is no prologue. -/
theorem runWithHandle_of_opened {s : State} (h : s.handle = .opened) : runWithHandle s = runOperation s := by
  simp [runWithHandle, h]

/-- R173: a handle lets the operation run in the same step. -/
theorem runWithHandle_of_open_succeeds {s : State} (h : s.handle = .closed) (hopen : (openDevice s).handle = .opened) :
    runWithHandle s = runOperation (openDevice s) := by
  simp [runWithHandle, h, hopen]

/-- R173: a failed open ends the step. -/
theorem runWithHandle_of_open_fails {s : State} (h : s.handle = .closed) (hopen : (openDevice s).handle = .closed) :
    runWithHandle s = .next (openDevice s) := by
  simp [runWithHandle, h, hopen]

/-- R23: at the end of the program there is nothing left to execute. -/
theorem runOperation_of_pc_eq_length {s : State} (h : s.pc = s.prog.length) : runOperation s = .next s.finishRun := by
  simp [runOperation, h]

/-- R23: the operation at pc is executed as its descriptor decodes. -/
theorem runOperation_of_decode {s : State} {d : Descriptor} {i : Instr} (hfetch : s.prog[s.pc]? = some d)
    (hdecode : decode d = .ok i) : runOperation s = exec i s := by
  have hlt : s.pc < s.prog.length := (List.getElem?_eq_some_iff.mp hfetch).1
  rw [runOperation, if_neg (by omega), hfetch]
  simp only [hdecode]

/-- R23, R202: the harness takes no step once the status is not Running. -/
theorem harnessStep_of_not_running {s : State} (h : s.status ≠ .running) : harnessStep s = .fault .runEnded := by
  unfold harnessStep
  cases hs : s.status with
  | running => exact absurd hs h
  | done => rfl
  | error e => rfl
  | refused q => rfl

/-- R207: nor in a run that was cut off. -/
theorem harnessStep_of_cutOff {s : State} (hstatus : s.status = .running) (hcut : s.cutOff = true) :
    harnessStep s = .fault .terminated := by
  simp [harnessStep, hstatus, hcut]

/-- Settles O42: with the handle open the step has no prologue, and the descriptor at pc decodes. -/
theorem stepRunsDecodedOperation : Obligations.StepRunsDecodedOperation := by
  intro s d i hinputs hcut hstatus hparams hhandle hfetch hdecode
  rw [step_eq_runWithHandle hinputs hcut hstatus hparams, runWithHandle_of_opened hhandle,
    runOperation_of_decode hfetch hdecode]

/-- Settles O44: with the handle open the step has no prologue, and no operation is left. -/
theorem runEndsAfterLastOperation : Obligations.RunEndsAfterLastOperation := by
  intro s hinputs hcut hstatus hparams hhandle hpc
  rw [step_eq_runWithHandle hinputs hcut hstatus hparams, runWithHandle_of_opened hhandle,
    runOperation_of_pc_eq_length hpc]
  rfl

/-- Settles O45: with no outside event due the step is the harness's, which stops in both cases. -/
theorem noStepAfterTheRun : Obligations.NoStepAfterTheRun := by
  intro s hinputs
  rw [step_of_inputs_nil hinputs]
  exact ⟨harnessStep_of_not_running, harnessStep_of_cutOff⟩

/-! ### The prologue -/

/-- R173: the state after an open that gave a handle. -/
theorem openDevice_of_handle {s : State} (h : openOutcome s.selector (drawOpen s.oracle).1 = .handle) :
    openDevice s = { s with
      oracle := (drawOpen s.oracle).2, log := s.log ++ [.opening s.selector .handle], handle := .opened } := by
  simp [openDevice, State.record, h]

/-- R173: the state after an open that found no device. -/
theorem openDevice_of_deviceNotFound {s : State}
    (h : openOutcome s.selector (drawOpen s.oracle).1 = .deviceNotFound) :
    openDevice s = { s with
      oracle := (drawOpen s.oracle).2, log := s.log ++ [.opening s.selector .deviceNotFound]
      handle := .closed, status := .error .deviceNotFound } := by
  simp [openDevice, State.record, State.raiseError, h]

/-- R173: the state after an open that found several devices. -/
theorem openDevice_of_multipleMatches {s : State}
    (h : openOutcome s.selector (drawOpen s.oracle).1 = .multipleMatches) :
    openDevice s = { s with
      oracle := (drawOpen s.oracle).2, log := s.log ++ [.opening s.selector .multipleMatches]
      handle := .closed, status := .error .multipleMatches } := by
  simp [openDevice, State.record, State.raiseError, h]

/-- Settles O43: from the state with an open handle the step runs the same operation, and a failed open releases a
handle that was closed already. -/
theorem prologueOpensDevice : Obligations.PrologueOpensDevice := by
  intro s o hinputs hcut hstatus hparams hclosed ho u
  rw [step_eq_runWithHandle hinputs hcut hstatus hparams]
  refine ⟨?_, ?_, ?_, ?_⟩
  · rintro bus address hselector rfl
    rw [hselector] at ho
    exact openOutcome_busAddress bus address _ ho
  · rintro rfl
    have hopen := openDevice_of_handle ho
    rw [runWithHandle_of_open_succeeds hclosed (by rw [hopen]), hopen,
      step_eq_runWithHandle (s := { u with handle := .opened }) hinputs hcut hstatus hparams,
      runWithHandle_of_opened rfl]
  · rintro rfl
    have hopen := openDevice_of_deviceNotFound ho
    rw [runWithHandle_of_open_fails hclosed (by rw [hopen]), hopen, ← hclosed]
  · rintro rfl
    have hopen := openDevice_of_multipleMatches ho
    rw [runWithHandle_of_open_fails hclosed (by rw [hopen]), hopen, ← hclosed]

/-! ### The invariant -/

/-- What holds between an operation's transfer and its end, where the transfer is logged and pc still stands at the
operation: the part of `Consistent` that says nothing of status and handle. -/
structure MidStep (s : State) : Prop where
  pc_le : s.pc ≤ s.prog.length
  res_none : s.res = none ↔ s.pc = 0
  log_ok : LogOk s
  transfers_end : (s.log.filter isTransfer).length ≤ s.pc + 1

/-- Before its transfer an operation stands in a consistent state. -/
theorem Consistent.midStep {s : State} (h : Consistent s) : MidStep s :=
  ⟨h.pc_le, h.res_none, h.log_ok, h.transfers_end⟩

/-- The device, the oracle and the outside world have no part in consistency. -/
theorem Consistent.with_outside {s : State} (h : Consistent s) (dev : DevState) (inputs : List Input) (cutOff : Bool) :
    Consistent { s with dev := dev, inputs := inputs, cutOff := cutOff } :=
  ⟨h.pc_le, h.released, h.done_at_end, h.res_none, h.fresh, h.opened, h.log_ok, h.transfers, h.transfers_end⟩

/-- R23, R208: a run that ends short of Done may do so in the middle of a step, for the handle is released. -/
theorem MidStep.consistent_ended {s : State} (h : MidStep s) {st : Status} (hrunning : st ≠ .running)
    (hdone : st ≠ .done) : Consistent { s with handle := .closed, status := st } where
  pc_le := h.pc_le
  released := fun _ => rfl
  done_at_end := fun hst => absurd hst hdone
  res_none := h.res_none
  fresh := fun hst => absurd hst hrunning
  opened := nofun
  log_ok := h.log_ok
  transfers := fun hst => absurd hst (not_or.mpr ⟨hrunning, hdone⟩)
  transfers_end := h.transfers_end

theorem MidStep.consistent_raiseError {s : State} (h : MidStep s) (e : Error) : Consistent (s.raiseError e) :=
  h.consistent_ended nofun nofun

theorem MidStep.consistent_refuse {s : State} (h : MidStep s) (q : Reason) : Consistent (s.refuse q) :=
  h.consistent_ended nofun nofun

/-- R23: an operation that ends Ok makes room for its one transfer by advancing pc. -/
theorem MidStep.consistent_complete {s : State} (h : MidStep s) (hstatus : s.status = .running)
    (hhandle : s.handle = .opened) (hpc : s.pc < s.prog.length)
    (hopened : s.log.head? = some (.opening s.selector .handle)) (v : Value) : Consistent (s.complete v) where
  pc_le := hpc
  released := fun hs => absurd hstatus hs
  done_at_end := by simp [hstatus]
  res_none := by simp
  fresh := by simp [hhandle]
  opened := fun _ => hopened
  log_ok := h.log_ok
  transfers := fun _ => h.transfers_end
  transfers_end := h.transfers_end.trans (Nat.le_succ _)

/-- R23: after the last operation the run may end Done. -/
theorem Consistent.after_finishRun {s : State} (h : Consistent s) (hstatus : s.status = .running)
    (hpc : s.pc = s.prog.length) : Consistent s.finishRun where
  pc_le := h.pc_le
  released := fun _ => rfl
  done_at_end := fun _ => hpc
  res_none := h.res_none
  fresh := nofun
  opened := nofun
  log_ok := h.log_ok
  transfers := fun _ => h.transfers (.inl hstatus)
  transfers_end := h.transfers_end

/-- R172, R173: a log that begins with an open that gave a handle takes any transfer. -/
theorem LogOk.append_transfer {s t : State} (h : LogOk s) (hopened : s.log.head? = some (.opening s.selector .handle))
    {ev : Event} (hev : isTransfer ev = true) (hselector : t.selector = s.selector) (hlog : t.log = s.log ++ [ev]) :
    LogOk t := by
  rcases h with hnil | ⟨outcome, transfers, hcons, htransfers, -, -⟩
  · simp [hnil] at hopened
  · obtain rfl : outcome = .handle := by simpa [hcons] using hopened
    refine .inr ⟨.handle, transfers ++ [ev], ?_, ?_, fun _ => rfl, nofun⟩
    · rw [hlog, hcons, hselector, List.cons_append]
    · intro x hx
      rcases List.mem_append.mp hx with hx | hx
      · exact htransfers x hx
      · rwa [List.mem_singleton.mp hx]

/-- R172: a transfer of a run whose handle is open leaves the log begun by the open, and the operation in its middle. -/
theorem Consistent.transferred {s t : State} (h : Consistent s) (hstatus : s.status = .running)
    (hhandle : s.handle = .opened) (htransfer : Transferred s t) :
    MidStep t ∧ t.log.head? = some (.opening t.selector .handle) := by
  have hopened := h.opened hhandle
  rcases htransfer.log_cases with rfl | ⟨ev, hev, hlog⟩
  · exact ⟨h.midStep, hopened⟩
  obtain ⟨-, hprog, hselector, hpc, hres, -, -, -, -⟩ := htransfer.frame
  have hcount : (t.log.filter isTransfer).length = (s.log.filter isTransfer).length + 1 := by
    simp [hlog, hev]
  have hbefore := h.transfers (.inl hstatus)
  refine ⟨⟨?_, ?_, h.log_ok.append_transfer hopened hev hselector hlog, ?_⟩, ?_⟩
  · rw [hpc, hprog]; exact h.pc_le
  · rw [hpc, hres]; exact h.res_none
  · omega
  · rw [hlog, hselector, List.head?_append, hopened]; rfl

/-- R23: an operation of the program, whatever its outcome, leaves a consistent state. -/
theorem Consistent.after_exec {s t : State} {i : Instr} (h : Consistent s) (hstatus : s.status = .running)
    (hhandle : s.handle = .opened) (hpc : s.pc < s.prog.length) (hexec : exec i s = .next t) : Consistent t := by
  obtain ⟨u, r, hr, htransfer, -⟩ := exec_inversion i s
  obtain rfl : u.conclude r = t := by rw [hexec] at hr; cases hr; rfl
  obtain ⟨-, hprog', -, hpc', -, hstatus', hhandle', -, -⟩ := htransfer.frame
  obtain ⟨hmid, hopened⟩ := h.transferred hstatus hhandle htransfer
  rcases u.conclude_cases r with ⟨v, -, hend⟩ | ⟨e, -, hend⟩ | ⟨q, -, hend⟩ <;> rw [hend]
  · exact hmid.consistent_complete (hstatus'.trans hstatus) (hhandle'.trans hhandle) (by rwa [hpc', hprog']) hopened v
  · exact hmid.consistent_raiseError e
  · exact hmid.consistent_refuse q

/-- R172, R173: the log after the prologue is the open alone, and no bus address matches several devices. -/
theorem logOk_of_open {s : State} {x : OpenOutcome}
    (h : s.log = [.opening s.selector (openOutcome s.selector x)]) : LogOk s := by
  refine .inr ⟨_, [], h, by simp, by simp, ?_⟩
  intro bus address hselector
  rw [hselector]
  exact openOutcome_busAddress bus address x

/-- R23, R173: the prologue of a fresh run leaves a consistent state, whatever the transport answers; where it leaves
the handle open the run goes on. -/
theorem Consistent.after_openDevice {s : State} (h : Consistent s) (hstatus : s.status = .running)
    (hhandle : s.handle = .closed) :
    Consistent (openDevice s) ∧ ((openDevice s).handle = .opened → (openDevice s).status = .running) := by
  obtain ⟨hpc, hlog⟩ := h.fresh hstatus hhandle
  obtain ⟨o, rfl, hopen⟩ := openDevice_cases s
  extract_lets u at hopen
  have hulog : u.log = [.opening u.selector (openOutcome u.selector (drawOpen s.oracle).1)] := by simp [u, hlog]
  have hmid : MidStep u := ⟨h.pc_le, h.res_none, logOk_of_open hulog, by simp [hulog, isTransfer]⟩
  rcases hopen with ⟨ho, hopen⟩ | ⟨-, hopen⟩ | ⟨-, hopen⟩ <;> rw [hopen]
  · refine ⟨?_, fun _ => hstatus⟩
    exact {
      pc_le := h.pc_le
      released := fun hs => absurd hstatus hs
      done_at_end := h.done_at_end
      res_none := h.res_none
      fresh := nofun
      opened := fun _ => by simp [u, hlog, ho]
      log_ok := hmid.log_ok
      transfers := fun _ => by simp [hulog, isTransfer]
      transfers_end := hmid.transfers_end }
  · exact ⟨hmid.consistent_raiseError _, nofun⟩
  · exact ⟨hmid.consistent_raiseError _, nofun⟩

/-- R23: a harness step keeps consistency, on each of its ways to a next state. -/
theorem Consistent.after_harnessStep {s t : State} (h : Consistent s) (hstep : harnessStep s = .next t) : Consistent t := by
  obtain ⟨hstatus, -, ⟨-, rfl⟩ | ⟨-, hhandle, -, rfl⟩ | ⟨-, u, hu, hend⟩⟩ := harnessStep_cases hstep
  · exact h.midStep.consistent_refuse .badParams
  · exact (h.after_openDevice hstatus hhandle).1
  · obtain ⟨hcons, hustatus, huhandle⟩ : Consistent u ∧ u.status = .running ∧ u.handle = .opened := by
      rcases hu with ⟨hhandle, rfl⟩ | ⟨hhandle, hopen, rfl⟩
      · exact ⟨h, hstatus, hhandle⟩
      · obtain ⟨hcons, hrunning⟩ := h.after_openDevice hstatus hhandle
        exact ⟨hcons, hrunning hopen, hopen⟩
    rcases hend with ⟨hpc, rfl⟩ | ⟨d, i, hfetch, -, hexec⟩
    · exact hcons.after_finishRun hustatus hpc
    · exact hcons.after_exec hustatus huhandle (List.getElem?_eq_some_iff.mp hfetch).1 hexec

/-- Settles O50: a power cycle and a termination touch nothing the invariant reads, an invocation starts a fresh run, and
every other step is a harness step. -/
theorem stepKeepsConsistent : Obligations.StepKeepsConsistent := by
  intro s t h hstep
  rcases step_cases hstep with ⟨rest, -, rfl⟩ | ⟨rest, -, rfl⟩ | ⟨selector, prog, rest, -, rfl⟩ | ⟨-, hharness⟩ |
    ⟨rest, -, hharness⟩
  · exact h.with_outside _ rest s.cutOff
  · exact h.with_outside s.dev rest true
  · exact consistent_of_fresh rfl rfl rfl rfl rfl
  · exact h.after_harnessStep hharness
  · exact (h.with_outside s.dev rest s.cutOff).after_harnessStep hharness

/-! ### The default layout -/

/-- R29: the default `FIELD_MASK`, whose bits 22..20 are the 2500M triggers of the variant that has them. -/
theorem fieldMask_default (b : Bool) :
    fieldMask { defaultParams with has2500m := b } = if b then 0x077F0FFF else 0x070F0FFF := by
  cases b <;> decide

/-- R29: `RESERVED_MASK` is the complement. -/
theorem reservedMask_default (b : Bool) :
    reservedMask { defaultParams with has2500m := b } = if b then 0xF880F000 else 0xF8F0F000 := by
  rw [reservedMask, fieldMask_default]
  cases b <;> rfl

/-- Settles O21: the two masks on each variant. -/
theorem defaultMasks : Obligations.DefaultMasks :=
  ⟨fieldMask_default true, fieldMask_default false, reservedMask_default true, reservedMask_default false⟩

/-- R31: entry `4 * BD[3:2] + BD[1:0]` of the product table. -/
theorem bdEntry_default : ∀ i d : Fin 4,
    bdEntry defaultParams (4 * i + d) = some (defaultInterval i, defaultDuty d) := by decide

/-- R31: a pattern below 16 is its two pairs of bits. -/
theorem bdEntry_default_of_lt {pattern : Nat} (h : pattern < 16) :
    ∃ i d : Fin 4, bdEntry defaultParams pattern = some (defaultInterval i, defaultDuty d) := by
  refine ⟨⟨pattern / 4, by omega⟩, ⟨pattern % 4, by omega⟩, ?_⟩
  rw [← bdEntry_default, Nat.div_add_mod]

/-- R31: every interval is selected by some `BD[3:2]`. -/
theorem defaultInterval_surjective (iv : Interval) : ∃ i, defaultInterval i = iv := by
  cases iv with
  | fixed0 => exact ⟨0, rfl⟩
  | fixed1 => exact ⟨1, rfl⟩
  | fixed2 => exact ⟨2, rfl⟩
  | linkSpeedDependent => exact ⟨3, rfl⟩

/-- R31: the supported duty cycles are those that some `BD[1:0]` selects. -/
theorem exists_defaultDuty_iff (d : Nat) : (∃ j, defaultDuty j = d) ↔ d ∈ [125, 250, 500, 750] := by
  simp [Fin.exists_fin_succ, defaultDuty, eq_comm]

/-- R31: `BD_INV` inverts the default table. -/
theorem bdInv_default_iff (e : Interval × Nat) (pattern : Nat) :
    bdInv defaultParams e = some pattern ↔ pattern < 16 ∧ bdEntry defaultParams pattern = some e :=
  ⟨bdInv_some, fun ⟨hlt, he⟩ => bdInv_bdEntry paramsOk_defaultParams hlt he⟩

/-- Settles O22: a pattern is a pair of an interval and a duty selector, so the entries are all the pairs of an interval
with a supported duty. -/
theorem defaultTableInverse : Obligations.DefaultTableInverse := by
  refine ⟨fun pattern hlt => ?_, fun iv d => ?_, fun iv d pattern => bdInv_default_iff (iv, d) pattern⟩
  · obtain ⟨i, j, he⟩ := bdEntry_default_of_lt hlt
    rw [he]; rfl
  rw [Option.isSome_iff_exists, ← exists_defaultDuty_iff]
  constructor
  · rintro ⟨pattern, hinv⟩
    obtain ⟨hlt, he⟩ := bdInv_some hinv
    obtain ⟨i, j, hij⟩ := bdEntry_default_of_lt hlt
    cases he.symm.trans hij
    exact ⟨j, rfl⟩
  · rintro ⟨j, rfl⟩
    obtain ⟨i, rfl⟩ := defaultInterval_surjective iv
    exact ⟨4 * i + j, (bdInv_default_iff _ _).mpr ⟨by omega, bdEntry_default i j⟩⟩

/-! ### Operands of the wrong type -/

/-! R23: `res` with no result of the type that its reader asks for. -/

theorem resolveU32_res_of_ne {s : State} (h : ∀ v, s.res ≠ some (.u32 v)) :
    resolveU32 .res s = .refused .operandType := by
  rcases hres : s.res with _ | (v | bs | c | _)
  case some.u32 => exact absurd hres (h v)
  all_goals simp [resolveU32, hres]

theorem resolveBytes_res_of_ne {s : State} (h : ∀ bs, s.res ≠ some (.bytes bs)) :
    resolveBytes .res s = .refused .operandType := by
  rcases hres : s.res with _ | (v | bs | c | _)
  case some.bytes => exact absurd hres (h bs)
  all_goals simp [resolveBytes, hres]

theorem resolveConfig_res_of_ne {s : State} (h : ∀ c, s.res ≠ some (.config c)) :
    resolveConfig .res s = .refused .operandType := by
  rcases hres : s.res with _ | (v | bs | c | _)
  case some.config => exact absurd hres (h c)
  all_goals simp [resolveConfig, hres]

/-! Each operation one of whose operands is refused ends the run in the state it began in, whichever operand it is
(R23, R203). -/

theorem exec_pack_refused {a : Arg Word} {w : Arg Nat} {s : State}
    (h : resolveU32 a s = .refused .operandType ∨ resolveNat w = .refused .operandType) :
    exec (.pack a w) s = .next (s.refuse .operandType) := by
  rcases h with ha | hw
  · simp [exec, execPack, ha]
  · rcases resolveU32_cases a s with ⟨v, ha⟩ | ha <;> simp [exec, execPack, ha, hw]

theorem exec_unpack_refused {a : Arg (List Byte)} {w : Arg Nat} {s : State}
    (h : resolveBytes a s = .refused .operandType ∨ resolveNat w = .refused .operandType) :
    exec (.unpack a w) s = .next (s.refuse .operandType) := by
  rcases h with ha | hw
  · simp [exec, execUnpack, ha]
  · rcases resolveBytes_cases a s with ⟨bs, ha⟩ | ha <;> simp [exec, execUnpack, ha, hw]

theorem exec_ledDecode_refused {a : Arg Word} {s : State} (h : resolveU32 a s = .refused .operandType) :
    exec (.ledDecode a) s = .next (s.refuse .operandType) := by
  simp [exec, execLedDecode, h]

theorem exec_ledEncode_refused {a : Arg LedConfiguration} {s : State} (h : resolveConfig a s = .refused .operandType) :
    exec (.ledEncode a) s = .next (s.refuse .operandType) := by
  simp [exec, execLedEncode, h]

theorem exec_dsWrite_refused {a : Arg LedConfiguration} {s : State} (h : resolveConfig a s = .refused .operandType) :
    exec (.dsWrite a) s = .next (s.refuse .operandType) := by
  simp [exec, execDsWrite, h]

theorem exec_dsReadRaw_refused {off w : Arg Nat} {s : State}
    (h : resolveNat off = .refused .operandType ∨ resolveNat w = .refused .operandType) :
    exec (.dsReadRaw off w) s = .next (s.refuse .operandType) := by
  rcases h with hoff | hw
  · simp [exec, execDsReadRaw, hoff]
  · rcases resolveNat_cases off with ⟨n, hoff⟩ | hoff <;> simp [exec, execDsReadRaw, hoff, hw]

theorem exec_dsWriteRaw_refused {off w : Arg Nat} {a : Arg Word} {s : State}
    (h : resolveNat off = .refused .operandType ∨ resolveNat w = .refused .operandType ∨
      resolveU32 a s = .refused .operandType) :
    exec (.dsWriteRaw off w a) s = .next (s.refuse .operandType) := by
  rcases resolveNat_cases off with ⟨n, hoff⟩ | hoff
  · rcases resolveNat_cases w with ⟨m, hw⟩ | hw
    · have ha : resolveU32 a s = .refused .operandType := by simpa [hoff, hw] using h
      simp [exec, execDsWriteRaw, hoff, hw, ha]
    · simp [exec, execDsWriteRaw, hoff, hw]
  · simp [exec, execDsWriteRaw, hoff]

/-- Settles O34: `res` is refused by the reader of its operand's type, and no reader of a width or an offset takes it. -/
theorem wrongOperandTypeRefused : Obligations.WrongOperandTypeRefused := by
  intro s w off x y
  refine ⟨fun h => ?_, fun h => ?_, fun h => ?_, ?_⟩
  · have hres := resolveU32_res_of_ne h
    exact ⟨exec_pack_refused (.inl hres), exec_ledDecode_refused hres, exec_dsWriteRaw_refused (.inr (.inr hres))⟩
  · exact exec_unpack_refused (.inl (resolveBytes_res_of_ne h))
  · have hres := resolveConfig_res_of_ne h
    exact ⟨exec_ledEncode_refused hres, exec_dsWrite_refused hres⟩
  · exact ⟨exec_pack_refused (.inr resolveNat_res), exec_unpack_refused (.inr resolveNat_res),
      exec_dsReadRaw_refused (.inl resolveNat_res), exec_dsReadRaw_refused (.inr resolveNat_res),
      exec_dsWriteRaw_refused (.inl resolveNat_res), exec_dsWriteRaw_refused (.inr (.inl resolveNat_res))⟩

end Sys2Proof.Machine
end

section
/-! Proofs of the memory statements: which operations reach the device (R50, R72, R80), how many transfers one makes
(R58, R59, R172, R243), and what a write leaves in it (R56, R59). -/

namespace Sys2Proof.Machine

/-! ### Which operations reach the device -/

/-- The inversion of an operation, read from the next state it answers. -/
theorem exec_next_inversion {i : Instr} {s t : State} (h : exec i s = .next t) :
    ∃ (u : State) (r : Result Value), t = u.conclude r ∧ Transferred s u ∧ (∀ q, r = .refused q → u = s) ∧
      (reachesTransport i = false → u = s) := by
  obtain ⟨u, r, hexec, htransfer, -, hrefused, hcodec⟩ := exec_inversion i s
  rw [hexec] at h
  cases h
  exact ⟨u, r, rfl, htransfer, fun q hq => (hrefused q hq).2, hcodec⟩

/-- R72, R80: the two high selector bits of every well-formed instruction. -/
theorem selectorBits (i : Instr) : Laws.SelectorBits.Statement i := by
  cases i with
  | pack v w => exact Laws.SelectorBits.pack v w
  | unpack bs w => exact Laws.SelectorBits.unpack bs w
  | ledDecode raw => exact Laws.SelectorBits.ledDecode raw
  | ledEncode c => exact Laws.SelectorBits.ledEncode c
  | dsRead => exact Laws.SelectorBits.dsRead
  | dsWrite c => exact Laws.SelectorBits.dsWrite c
  | dsReadRaw off w => exact Laws.SelectorBits.dsReadRaw off w
  | dsWriteRaw off w v => exact Laws.SelectorBits.dsWriteRaw off w v
  | reserved op operands => exact Laws.SelectorBits.reserved op operands

/-- R80: a reserved selector reaches no device. -/
theorem reachesTransport_of_isReserved {i : Instr} (h : isReserved i = true) : reachesTransport i = false := by
  cases i with
  | reserved op operands => rfl
  | _ => cases h

/-- R72: an operation reaches the device only where its selector has `op[3] = 0` and `op[2] = 1`. -/
theorem reachesTransport_of_selector {i : Instr} (hwf : i.wellFormed = true)
    (hop : (encode i).op.getLsbD 2 = false ∨ (encode i).op.getLsbD 3 = true) : reachesTransport i = false := by
  obtain ⟨hbit3, hbit2⟩ := selectorBits i hwf
  cases hres : isReserved i with
  | true => exact reachesTransport_of_isReserved hres
  | false =>
    rw [hbit2 hres, hbit3, hres] at hop
    exact hop.resolve_right Bool.false_ne_true

/-- Settles O37: such an operation concludes from the state it began in, and a conclusion writes none of the three
fields. -/
theorem codecOperationsReachNoDevice : Obligations.CodecOperationsReachNoDevice := by
  intro i s t hwf hop hexec
  obtain ⟨u, r, rfl, -, -, hcodec⟩ := exec_next_inversion hexec
  obtain rfl := hcodec (reachesTransport_of_selector hwf hop)
  exact ⟨u.conclude_dev r, u.conclude_log r, u.conclude_oracle r⟩

/-! ### How many transfers an operation makes -/

/-- R23: an operation of a Running run ends Refused only by a refusal. -/
theorem State.refused_of_conclude_status {s : State} {r : Result Value} {q : Reason} (hstatus : s.status = .running)
    (h : (s.conclude r).status = .refused q) : r = .refused q := by
  cases r with
  | ok v => cases hstatus.symm.trans h
  | err e => cases h
  | refused q' => cases h; rfl

/-- Settles O38: a transfer appends its one event, and a refused operation has made none. -/
theorem oneTransferPerOperation : Obligations.OneTransferPerOperation := by
  intro i s t hstatus hexec
  obtain ⟨u, r, rfl, htransfer, hrefused, -⟩ := exec_next_inversion hexec
  rcases htransfer.log_cases with rfl | ⟨ev, hev, hlog⟩
  · exact .inl ⟨u.conclude_log r, u.conclude_oracle r, u.conclude_dev r⟩
  · refine .inr ⟨ev, hev, (u.conclude_log r).trans hlog, fun q hq => ?_⟩
    obtain ⟨-, -, -, -, -, hstatus', -, -, -⟩ := htransfer.frame
    obtain rfl := hrefused q (State.refused_of_conclude_status (hstatus'.trans hstatus) hq)
    simp at hlog

/-! ### The device after a write -/

/-- R56: where no write was logged the device is as before. -/
theorem Transferred.dev_of_no_write {s t : State} (h : Transferred s t)
    (hlog : ∀ ev, t.log = s.log ++ [ev] → isWrite ev = false) : t.dev = s.dev := by
  cases h with
  | none => rfl
  | read o off w index outcome => rfl
  | write o off n index bs outcome hlen => cases hlog _ rfl

/-- R56, R171: a logged write carries all the bytes of its width, and the device follows it. -/
theorem Transferred.dev_of_write {s t : State} (h : Transferred s t) {off w index : Nat} {bs : List Byte}
    {outcome : WriteOutcome} (hlog : t.log = s.log ++ [.write off w index bs outcome]) :
    w = 8 * bs.length ∧ t.dev = deviceAfterWrite s.params s.dev off bs.length bs outcome := by
  cases h with
  | none => simp at hlog
  | read o off' w' index' outcome' => simp at hlog
  | write o off' n index' bs' outcome' hlen =>
    simp only [List.append_cancel_left_eq, List.cons.injEq, Event.write.injEq, and_true] at hlog
    obtain ⟨rfl, rfl, -, rfl, rfl⟩ := hlog
    subst hlen
    exact ⟨rfl, rfl⟩

/-- R56: the complete 32-bit writes at `LED_REG`, by the number of bytes. -/
theorem isCompleteLedWrite_write_iff (p : Params) (off n index : Nat) (bs : List Byte) (o : WriteOutcome) :
    isCompleteLedWrite p (.write off (8 * n) index bs o) = true ↔ off = p.ledReg ∧ n = 4 ∧ o = .ok 4 := by
  have hwidth : 8 * n = 32 ↔ n = 4 := by omega
  simp [isCompleteLedWrite, hwidth, and_assoc]

/-- R56: a complete 32-bit write at `LED_REG` stores its value. -/
theorem deviceAfterWrite_ledReg (p : Params) (dev : DevState) (bs : List Byte) :
    deviceAfterWrite p dev p.ledReg 4 bs (.ok 4) = ⟨leValue bs, true⟩ :=
  if_pos ⟨rfl, rfl, rfl⟩

/-- R56: every other write leaves the LED register unknown. -/
theorem deviceAfterWrite_of_not_complete {p : Params} {dev : DevState} {off n : Nat} {bs : List Byte}
    {o : WriteOutcome} (h : ¬ (off = p.ledReg ∧ n = 4 ∧ o = .ok 4)) :
    deviceAfterWrite p dev off n bs o = { dev with known := false } :=
  if_neg h

/-- Settles O39: a conclusion keeps device and log, and the device after a transfer is read from its event. -/
theorem deviceFollowsWrites : Obligations.DeviceFollowsWrites := by
  intro i s t hexec
  obtain ⟨u, r, rfl, htransfer, -, -⟩ := exec_next_inversion hexec
  rw [State.conclude_dev, State.conclude_log]
  refine ⟨htransfer.dev_of_no_write, fun ev hlog hwrite hpartial => ?_, fun off w index bs o hlog hcomplete => ?_⟩
  · cases ev with
    | opening selector outcome => cases hwrite
    | read off w index outcome => cases hwrite
    | write off w index bs o =>
      obtain ⟨rfl, hdev⟩ := htransfer.dev_of_write hlog
      rw [hdev]
      refine deviceAfterWrite_of_not_complete fun hcomplete => ?_
      rw [(isCompleteLedWrite_write_iff ..).mpr hcomplete] at hpartial
      cases hpartial
  · obtain ⟨rfl, hdev⟩ := htransfer.dev_of_write hlog
    obtain ⟨rfl, hlen, rfl⟩ := (isCompleteLedWrite_write_iff ..).mp hcomplete
    rw [hdev, hlen, deviceAfterWrite_ledReg]
    exact ⟨rfl, by rw [← hlen, leBytes_leValue (by omega)]⟩

/-! ### A 32-bit write at `LED_REG` that ended Ok -/

/-- R23: an operation leaves the status Running only with an Ok result. -/
theorem State.ok_of_conclude_running {s : State} {r : Result Value} (h : (s.conclude r).status = .running) :
    ∃ v, r = .ok v := by
  cases r with
  | ok v => exact ⟨v, rfl⟩
  | err e => cases h
  | refused q => cases h

theorem Result.ok_of_map_ok {α β : Type} {f : α → β} {r : Result α} {b : β} (h : r.map f = .ok b) :
    ∃ a, r = .ok a := by
  cases r with
  | ok a => exact ⟨a, rfl⟩
  | err e => cases h
  | refused q => cases h

/-- R185, R195: a register write that ends Ok was complete, and the device follows it. -/
theorem writeBytes_dev_of_ok {off w : Nat} {bs : List Byte} {s : State} {u : Unit}
    (h : (writeBytes off w bs s).1 = .ok u) :
    (writeBytes off w bs s).2.dev = deviceAfterWrite s.params s.dev off (w / 8) bs (.ok (w / 8)) := by
  unfold writeBytes at h ⊢
  rcases memWrite_cases off (w / 8) bs s with ⟨f, -, hmem⟩ | ⟨k, -, hmem⟩
  · rw [hmem] at h; cases h
  · have hk : min k (w / 8) = w / 8 := by
      by_contra hk
      simp [hmem, hk] at h
    rw [hmem, hk]

/-- R195, R205: a raw write that ends Ok has passed every check, the value check included. -/
theorem dsWriteRaw_of_ok {off w : Nat} {x : Word} {s : State} {u : Unit} (h : (dsWriteRaw off w x s).1 = .ok u) :
    x.toNat < 2 ^ w ∧ dsWriteRaw off w x s = writeBytes off w (leBytes (w / 8) x) s := by
  unfold dsWriteRaw at h ⊢
  rcases checkAccess_cases s.params off w with ⟨-, hc⟩ | ⟨-, -, hc⟩ | ⟨-, -, -, hc⟩ | ⟨-, -, -, hc⟩ <;> rw [hc] at h
  · cases h
  · cases h
  · cases h
  · rcases pack_cases x w with ⟨-, hp⟩ | ⟨-, -, hp⟩ | ⟨-, hx, hp⟩
    · simp [hp] at h
    · simp [hp] at h
    · exact ⟨hx, by rw [hc, Result.bind_ok, hp, Result.thenIn_ok]⟩

/-- R56: after a 32-bit raw write at `LED_REG` that ended Ok the LED register is known to hold the value written. -/
theorem exec_dsWriteRaw_ledReg_dev {s t : State} {x : Word}
    (hexec : exec (.dsWriteRaw (.lit s.params.ledReg) (.lit 32) (.lit x)) s = .next t) (hstatus : t.status = .running) :
    t.dev = ⟨x, true⟩ := by
  rw [exec_dsWriteRaw (.inl rfl)] at hexec
  cases hexec
  obtain ⟨_, hmap⟩ := State.ok_of_conclude_running hstatus
  obtain ⟨_, hok⟩ := Result.ok_of_map_ok hmap
  obtain ⟨hx, hwrite⟩ := dsWriteRaw_of_ok hok
  rw [hwrite] at hok
  rw [State.conclude_dev, hwrite, writeBytes_dev_of_ok hok, deviceAfterWrite_ledReg, leValue_leBytes hx]

/-- Settles O40: each of the two writes leaves the device with the value written, whatever it was before. -/
theorem repeatedWriteIsIdempotent : Obligations.RepeatedWriteIsIdempotent := by
  intro s t u v x _ hfirst ht hparams _ _ hsecond hv
  rw [← hparams] at hsecond
  exact (exec_dsWriteRaw_ledReg_dev hsecond hv).trans (exec_dsWriteRaw_ledReg_dev hfirst ht).symm

end Sys2Proof.Machine
end

section
/-! Proofs of the encoding statements: the decoder and the encoder of descriptors are inverse to each other, and no
reserved selector falls through (R71, R80, R91); what the source's example fixes of the layout (R7, R74); the assembly
and the commands (R90, R92). -/

namespace Sys2Proof.Machine

/-! ### The reserved selectors -/

/-- R80: `op[3] = 1` says that the selector is 8 or more. -/
theorem selector_bit3_iff (op : BitVec 4) : op.getLsbD 3 = true ↔ 8 ≤ op.toNat := by
  revert op
  decide

/-- R80: no operand tuple keeps a reserved selector from its row. -/
theorem decode_of_bit3 {d : Descriptor} (h : d.op.getLsbD 3 = true) : decode d = .ok (.reserved d.op d.operands) := by
  have hop : 8 ≤ d.op.toNat := (selector_bit3_iff d.op).mp h
  unfold decode
  split
  case h_9 => rfl
  all_goals omega

/-! ### Decoding what was encoded -/

/-- Settles O2: a reserved selector keeps its operands as they stand, and in each other row the operand's reader takes
back what its writer wrote. -/
theorem descriptorDecodeInvertsEncode : Obligations.DescriptorDecodeInvertsEncode := by
  intro i hwf
  cases i with
  | reserved op operands => exact decode_of_bit3 hwf
  | dsRead => rfl
  | ledDecode raw => simp [encode, decode, typed]
  | ledEncode c => simp [encode, decode, typed]
  | dsWrite c => simp [encode, decode, typed]
  | pack v w => simp [encode, decode, typed]
  | unpack bs w => simp [encode, decode, typed]
  | dsReadRaw off w => simp [encode, decode, typed]
  | dsWriteRaw off w v => simp [encode, decode, typed]

/-! ### Encoding what was decoded

In a row, each operand has a reader that accepts only what its writer writes (`hread`), and the row's instructions are
written with these writers (`hmk`). -/

/-- R71: the rows of one operand. -/
theorem encode_of_typed_one {α : Type} {read : OperandVal → Option (Arg α)} {write : α → OperandVal}
    {mk : Arg α → Instr} {op : BitVec 4} {o : OperandVal} {i : Instr}
    (hread : ∀ {o a}, read o = some a → a.toOperand write = o)
    (hmk : ∀ a, encode (mk a) = ⟨op, [a.toOperand write]⟩ ∧ (mk a).wellFormed = true)
    (h : typed ((read o).map mk) = .ok i) : encode i = ⟨op, [o]⟩ ∧ i.wellFormed = true := by
  obtain ⟨a, ha, rfl⟩ := Option.map_eq_some_iff.mp (eq_some_of_typed h)
  rw [← hread ha]
  exact hmk a

/-- R71: the rows of two operands. -/
theorem encode_of_typed_two {α β : Type} {read : OperandVal → Option (Arg α)} {write : α → OperandVal}
    {read' : OperandVal → Option (Arg β)} {write' : β → OperandVal}
    {mk : Arg α → Arg β → Instr} {op : BitVec 4} {o o' : OperandVal} {i : Instr}
    (hread : ∀ {o a}, read o = some a → a.toOperand write = o)
    (hread' : ∀ {o b}, read' o = some b → b.toOperand write' = o)
    (hmk : ∀ a b, encode (mk a b) = ⟨op, [a.toOperand write, b.toOperand write']⟩ ∧ (mk a b).wellFormed = true)
    (h : typed ((read o).bind fun a => (read' o').map fun b => mk a b) = .ok i) :
    encode i = ⟨op, [o, o']⟩ ∧ i.wellFormed = true := by
  obtain ⟨a, ha, hi⟩ := Option.bind_eq_some_iff.mp (eq_some_of_typed h)
  obtain ⟨b, hb, rfl⟩ := Option.map_eq_some_iff.mp hi
  rw [← hread ha, ← hread' hb]
  exact hmk a b

/-- R71: the one row of three operands. -/
theorem encode_of_typed_dsWriteRaw {x y z : OperandVal} {i : Instr}
    (h : typed ((asOffset x).bind fun off => (asWidth y).bind fun w => (asU32 z).map fun v => .dsWriteRaw off w v) =
      .ok i) : encode i = ⟨0x7, [x, y, z]⟩ ∧ i.wellFormed = true := by
  obtain ⟨off, hoff, hi⟩ := Option.bind_eq_some_iff.mp (eq_some_of_typed h)
  obtain ⟨w, hw, hi⟩ := Option.bind_eq_some_iff.mp hi
  obtain ⟨v, hv, rfl⟩ := Option.map_eq_some_iff.mp hi
  rw [← toOperand_of_asOffset hoff, ← toOperand_of_asWidth hw, ← toOperand_of_asU32 hv]
  exact ⟨rfl, rfl⟩

/-- A descriptor is its selector's number and its operands. -/
theorem descriptor_eq {d : Descriptor} {n : Nat} {os : List OperandVal} (hop : d.op.toNat = n) (hos : d.operands = os) :
    d = ⟨BitVec.ofNat 4 n, os⟩ := by
  subst hop hos
  simp

/-- Settles O3: the selector names the row, a tuple of another length is no tuple of it, and the readers of the row give
back their operands. -/
theorem descriptorEncodeInvertsDecode : Obligations.DescriptorEncodeInvertsDecode := by
  intro d i
  fun_cases decode d with
  | case1 hop v w hos =>
    rw [descriptor_eq hop hos]
    exact encode_of_typed_two toOperand_of_asU32 toOperand_of_asWidth fun _ _ => ⟨rfl, rfl⟩
  | case3 hop bs w hos =>
    rw [descriptor_eq hop hos]
    exact encode_of_typed_two toOperand_of_asBytes toOperand_of_asWidth fun _ _ => ⟨rfl, rfl⟩
  | case5 hop raw hos =>
    rw [descriptor_eq hop hos]
    exact encode_of_typed_one toOperand_of_asU32 fun _ => ⟨rfl, rfl⟩
  | case7 hop c hos =>
    rw [descriptor_eq hop hos]
    exact encode_of_typed_one toOperand_of_asConfig fun _ => ⟨rfl, rfl⟩
  | case9 hop hos =>
    rw [descriptor_eq hop hos]
    rintro ⟨⟩
    exact ⟨rfl, rfl⟩
  | case11 hop c hos =>
    rw [descriptor_eq hop hos]
    exact encode_of_typed_one toOperand_of_asConfig fun _ => ⟨rfl, rfl⟩
  | case13 hop off w hos =>
    rw [descriptor_eq hop hos]
    exact encode_of_typed_two toOperand_of_asOffset toOperand_of_asWidth fun _ _ => ⟨rfl, rfl⟩
  | case15 hop off w v hos =>
    rw [descriptor_eq hop hos]
    exact encode_of_typed_dsWriteRaw
  | case17 h0 h1 h2 h3 h4 h5 h6 h7 =>
    rintro ⟨⟩
    exact ⟨rfl, (selector_bit3_iff d.op).mpr (by simp only [imp_false] at *; omega)⟩
  | case2 | case4 | case6 | case8 | case10 | case12 | case14 | case16 => nofun

/-- Settles O4: what decodes is the encoding of its instruction, whose bit 3 is set only for a reserved one. -/
theorem reservedSelectorsNeverFallThrough : Obligations.ReservedSelectorsNeverFallThrough := by
  intro d
  refine ⟨decode_of_bit3, fun hbit i h => ?_⟩
  obtain ⟨rfl, hwf⟩ := descriptorEncodeInvertsDecode d i h
  obtain ⟨hres, -⟩ := selectorBits i hwf
  exact ⟨hres.symm.trans hbit, rfl⟩

/-! ### Descriptors, lines and commands written out -/

/-- A descriptor that is the encoding of a well-formed instruction decodes to it. -/
theorem decode_of_encode_eq {d : Descriptor} {i : Instr} (hd : encode i = d) (hwf : i.wellFormed = true) :
    decode d = .ok i :=
  hd ▸ descriptorDecodeInvertsEncode i hwf

/-- Settles O1: the nine rows are the encodings of their instructions, and the decoder is run on the two tuples that are
of no row. -/
theorem tableRowsDecode : Obligations.TableRowsDecode :=
  ⟨decode_of_encode_eq rfl rfl, decode_of_encode_eq rfl rfl, decode_of_encode_eq rfl rfl, decode_of_encode_eq rfl rfl,
    decode_of_encode_eq rfl rfl, decode_of_encode_eq rfl rfl, decode_of_encode_eq rfl rfl, decode_of_encode_eq rfl rfl,
    decode_of_encode_eq rfl rfl, rfl, rfl⟩

/-- Settles O33: refusing is all that the operation does. -/
theorem reservedSelectorRefused : Obligations.ReservedSelectorRefused := by
  intro op operands s
  rfl

/-- R7 condition 7: under well-formed parameters the example word decodes to the example's configuration. -/
theorem decodeConfig_exampleWord {p : Params} (h : paramsOk p = true) : decodeConfig p exampleWord = exampleConfig := by
  simp only [paramsOk, exampleDecodes, Bool.and_eq_true, beq_iff_eq] at h
  obtain ⟨⟨-, -, hdecode⟩, -⟩ := h
  exact hdecode

/-- Settles O53: a command's program is the encoding of its operations, and the bare `set` writes what the example word
decodes to. -/
theorem commandsExpand : Obligations.CommandsExpand := by
  intro p c off w v
  refine ⟨rfl, rfl, rfl, rfl, fun h => ?_⟩
  rw [← decodeConfig_exampleWord h]
  rfl

/-- Settles O54: the lines are fixed texts, so the assembler is run on them. -/
theorem assemblyLines : Obligations.AssemblyLines := ⟨rfl, rfl, rfl⟩

/-! ### What the example fixes of the layout (R74) -/

/-- R74: the low half of the example word is 0x0087. -/
theorem exampleWord_bit_iff {k : Nat} (hk : k < 16) :
    exampleWord.getLsbD k = true ↔ k = 0 ∨ k = 1 ∨ k = 2 ∨ k = 7 := by
  revert k
  decide

/-- R7 condition 7, LED by LED. -/
theorem decodeLed_exampleWord {p : Params} (h : paramsOk p = true) (i : Fin 3) :
    decodeLed p exampleWord i = exampleConfig.leds.get i := by
  rw [← decodeConfig_exampleWord h]
  fin_cases i <;> rfl

/-- R25: an LED blinks on activity exactly when its activity bit is set. -/
theorem decodeLed_activity_iff (p : Params) (raw : Word) (i : Fin 3) :
    (decodeLed p raw i).activity = .allSpeeds ↔ raw.getLsbD (p.nibOff.get i + p.bitAct) = true := by
  simp [decodeLed]

/-- R74 step 1: LED0's three link bits and LED1's activity bit are set in the example word. -/
theorem exampleWord_triggers {p : Params} (h : paramsOk p = true) :
    exampleWord.getLsbD (p.nibOff.get 0 + p.bit10m) = true ∧ exampleWord.getLsbD (p.nibOff.get 0 + p.bit100m) = true ∧
      exampleWord.getLsbD (p.nibOff.get 0 + p.bit1000m) = true ∧
      exampleWord.getLsbD (p.nibOff.get 1 + p.bitAct) = true := by
  have hled0 := decodeLed_exampleWord h 0
  exact ⟨congrArg LedSetting.link10 hled0, congrArg LedSetting.link100 hled0, congrArg LedSetting.link1000 hled0,
    (decodeLed_activity_iff p exampleWord 1).mp (congrArg LedSetting.activity (decodeLed_exampleWord h 1))⟩

/-- R74 step 2: only the four bits from 0 hold three of the bits 0, 1, 2, 7, so LED0's nibble is there and its link bits
are 0, 1 and 2. -/
theorem example_nibble0 {p : Params} (h : paramsOk p = true) :
    p.nibOff.get 0 = 0 ∧ p.bit10m ≤ 2 ∧ p.bit100m ≤ 2 ∧ p.bit1000m ≤ 2 := by
  have hp := placed_of_paramsOk h
  obtain ⟨h10, h100, h1000, -⟩ := exampleWord_triggers h
  obtain ⟨b10, b100, b1000, -⟩ := hp.bits
  obtain ⟨n1, n2, -, n3, -, -⟩ := hp.distinct
  have hn := hp.nib 0
  rw [exampleWord_bit_iff (by omega)] at h10 h100 h1000
  omega

/-- R74 steps 2 and 3: the activity bit is the one left in LED0's nibble, and bit 7 is LED1's. -/
theorem example_activity {p : Params} (h : paramsOk p = true) : p.bitAct = 3 ∧ p.nibOff.get 1 = 4 := by
  have hp := placed_of_paramsOk h
  obtain ⟨-, -, -, hact⟩ := exampleWord_triggers h
  obtain ⟨-, b10, b100, b1000⟩ := example_nibble0 h
  obtain ⟨-, -, -, bAct⟩ := hp.bits
  obtain ⟨n1, n2, n3, n4, n5, n6⟩ := hp.distinct
  have hn := hp.nib 1
  rw [exampleWord_bit_iff (by omega)] at hact
  omega

/-- Settles O20: the link bits are three different bits below 3, and LED2's nibble lies in the low half, apart from the
two below bit 8. -/
theorem exampleFixesNibbleLayout : Obligations.ExampleFixesNibbleLayout := by
  intro p h
  have hp := placed_of_paramsOk h
  obtain ⟨hn0, b10, b100, b1000⟩ := example_nibble0 h
  obtain ⟨hAct, hn1⟩ := example_activity h
  obtain ⟨n1, n2, -, n3, -, -⟩ := hp.distinct
  have hn2 := hp.nib 2
  have h20 := hp.nib_nib 2 0 (by decide)
  have h21 := hp.nib_nib 2 1 (by decide)
  refine ⟨hn0, hn1, hAct, fun b => ?_, by omega, by omega⟩
  simp only [List.mem_cons, List.not_mem_nil, or_false]
  omega

end Sys2Proof.Machine
end

section
/-! Proofs of the register codec's statements: what PACK and UNPACK answer in each case (R100, R101, R110, R111), and
that each gives back what the other took (R120, R121). -/

namespace Sys2Proof.Machine

/-! ### PACK, case by case -/

/-- R100: the width is checked first. -/
theorem exec_pack_of_unsupported {a : Arg Word} {s : State} {v : Word} {w : Nat} (ha : DenotesU32 a s v)
    (hw : w ∉ Config.widths) :
    exec (.pack a (.lit w)) s = .next { s with handle := .closed, status := .error .unsupportedWidth } := by
  rw [exec_pack ha, pack, if_neg hw]
  rfl

/-- R101: a value too wide is refused, not truncated. -/
theorem exec_pack_of_tooWide {a : Arg Word} {s : State} {v : Word} {w : Nat} (ha : DenotesU32 a s v)
    (hw : w ∈ Config.widths) (hv : 2 ^ w ≤ v.toNat) :
    exec (.pack a (.lit w)) s = .next { s with handle := .closed, status := .refused .valueTooWide } := by
  rw [exec_pack ha, pack, if_pos hw, if_pos hv]
  rfl

/-- R100: a value that fits gives its little-endian bytes. -/
theorem exec_pack_of_fits {a : Arg Word} {s : State} {v : Word} {w : Nat} (ha : DenotesU32 a s v)
    (hw : w ∈ Config.widths) (hv : v.toNat < 2 ^ w) :
    exec (.pack a (.lit w)) s = .next { s with res := some (.bytes (leBytes (w / 8) v)), pc := s.pc + 1 } := by
  rw [exec_pack ha, pack, if_pos hw, if_neg (Nat.not_le.mpr hv)]
  rfl

/-! ### UNPACK, case by case -/

/-- R110: the width is checked first. -/
theorem exec_unpack_of_unsupported {a : Arg (List Byte)} {s : State} {bs : List Byte} {w : Nat}
    (ha : DenotesBytes a s bs) (hw : w ∉ Config.widths) :
    exec (.unpack a (.lit w)) s = .next { s with handle := .closed, status := .error .unsupportedWidth } := by
  rw [exec_unpack ha, unpack, if_neg hw]
  rfl

/-- R110: a list of another length is an error, be it shorter or longer. -/
theorem exec_unpack_of_length_ne {a : Arg (List Byte)} {s : State} {bs : List Byte} {w : Nat}
    (ha : DenotesBytes a s bs) (hw : w ∈ Config.widths) (hlen : bs.length ≠ w / 8) :
    exec (.unpack a (.lit w)) s = .next { s with handle := .closed, status := .error .invalidWidth } := by
  rw [exec_unpack ha, unpack, if_pos hw, if_neg hlen]
  rfl

/-- R110: a list of the width's length gives its value. -/
theorem exec_unpack_of_length_eq {a : Arg (List Byte)} {s : State} {bs : List Byte} {w : Nat}
    (ha : DenotesBytes a s bs) (hw : w ∈ Config.widths) (hlen : bs.length = w / 8) :
    exec (.unpack a (.lit w)) s = .next { s with res := some (.u32 (leValue bs)), pc := s.pc + 1 } := by
  rw [exec_unpack ha, unpack, if_pos hw, if_pos hlen]
  rfl

/-! ### Values and bytes at a supported width -/

/-- R111: the value of w/8 bytes fits in w bits, so nothing wraps around in the 32-bit word. -/
theorem toNat_leValue_lt {bs : List Byte} {w : Nat} (hw : w ∈ Config.widths) (hlen : bs.length = w / 8) :
    (leValue bs).toNat < 2 ^ w := by
  obtain ⟨hbits, hle, -⟩ := width_cases hw
  rw [toNat_leValue (hlen.trans_le hle), ← hbits, ← hlen]
  exact leSum_lt bs

/-- R120: a value that fits is the value of its w/8 bytes. -/
theorem leValue_leBytes_width {v : Word} {w : Nat} (hw : w ∈ Config.widths) (hv : v.toNat < 2 ^ w) :
    leValue (leBytes (w / 8) v) = v := by
  obtain ⟨hbits, -, -⟩ := width_cases hw
  rw [← hbits] at hv
  exact leValue_leBytes hv

/-- R121: w/8 bytes are the bytes of their value. -/
theorem leBytes_leValue_width {bs : List Byte} {w : Nat} (hw : w ∈ Config.widths) (hlen : bs.length = w / 8) :
    leBytes (w / 8) (leValue bs) = bs := by
  obtain ⟨-, hle, -⟩ := width_cases hw
  rw [← hlen]
  exact leBytes_leValue (hlen.trans_le hle)

/-! ### The statements -/

/-- Settles O5: the three cases of PACK, and byte k of the result read off `leBytes`. -/
theorem packGivesLittleEndianBytes : Obligations.PackGivesLittleEndianBytes := by
  intro a v w s ha
  refine ⟨exec_pack_of_unsupported ha, exec_pack_of_tooWide ha, fun hw hv => ?_⟩
  exact ⟨leBytes (w / 8) v, length_leBytes _ v, fun _ hk => getElem?_leBytes v hk, exec_pack_of_fits ha hw hv⟩

/-- Settles O6: the three cases of UNPACK; the sum fits in the word because it is below 2^w. -/
theorem unpackGivesUnsignedValue : Obligations.UnpackGivesUnsignedValue := by
  intro a bs w s ha
  refine ⟨exec_unpack_of_unsupported ha, exec_unpack_of_length_ne ha, fun hw hlen => ?_⟩
  obtain ⟨-, hle, -⟩ := width_cases hw
  refine ⟨leValue bs, ?_, toNat_leValue_lt hw hlen, exec_unpack_of_length_eq ha hw hlen⟩
  rw [toNat_leValue (hlen.trans_le hle), leSum_eq_sum, hlen]

/-- Settles O7: PACK leaves w/8 bytes in `res`, which UNPACK takes back to the value they are of. -/
theorem unpackAfterPackGivesValue : Obligations.UnpackAfterPackGivesValue := by
  intro s v w hw hv
  refine ⟨_, _, exec_pack_of_fits (.inl rfl) hw hv,
    exec_unpack_of_length_eq (.inr ⟨rfl, rfl⟩) hw (length_leBytes _ v), ?_⟩
  rw [leValue_leBytes_width hw hv]

/-- Settles O8: UNPACK leaves a value below 2^w in `res`, which PACK takes back to its bytes; neither looks at its
operand under an unsupported width. -/
theorem packAfterUnpackGivesBytes : Obligations.PackAfterUnpackGivesBytes := by
  refine ⟨fun s bs w hw hlen => ?_, fun s v bs w hw =>
    ⟨exec_pack_of_unsupported (.inl rfl) hw, exec_unpack_of_unsupported (.inl rfl) hw⟩⟩
  refine ⟨_, _, exec_unpack_of_length_eq (.inl rfl) hw hlen,
    exec_pack_of_fits (.inr ⟨rfl, rfl⟩) hw (toNat_leValue_lt hw hlen), ?_⟩
  rw [leBytes_leValue_width hw hlen]

end Sys2Proof.Machine
end

section
/-! The laws of the LED codec: a word's field bits and its decoded fields determine each other (R131), what LED_ENCODE
accepts and writes (R140 to R142), and what encoding a decoded word gives (R134, R151). -/

namespace Sys2Proof.Machine

/-! ### The fields of a word (R29, R131) -/

/-- R29: no bit is both a field's and reserved. -/
theorem reservedMask_and_fieldMask (p : Params) : reservedMask p &&& fieldMask p = 0#32 :=
  BitVec.not_and_self _

/-- R131: flipping reserved bits leaves the field bits alone. -/
theorem xor_reserved_and_fieldMask {p : Params} {raw m : Word} (hm : m &&& reservedMask p = m) :
    (raw ^^^ m) &&& fieldMask p = raw &&& fieldMask p := by
  have hzero : m &&& fieldMask p = 0#32 := by
    rw [← hm, BitVec.and_assoc, reservedMask_and_fieldMask, BitVec.and_zero]
  calc (raw ^^^ m) &&& fieldMask p
      = raw &&& fieldMask p ^^^ m &&& fieldMask p := by
        ext j
        simp only [BitVec.getElem_and, BitVec.getElem_xor, Bool.and_xor_distrib_right]
    _ = raw &&& fieldMask p := by rw [hzero, BitVec.xor_zero]

/-- Words with the same field bits have the same bit wherever there is a field. -/
theorem getLsbD_eq_of_and_fieldMask_eq {p : Params} {w raw : Word} (h : w &&& fieldMask p = raw &&& fieldMask p)
    {j : Nat} (hj : (fieldMask p).getLsbD j = true) : w.getLsbD j = raw.getLsbD j := by
  have hbit := congrArg (·.getLsbD j) h
  simpa only [BitVec.getLsbD_and, hj, Bool.and_true] using hbit

/-- R131: LED i's setting depends on field bits only; the 2500M bit is one only on a variant that has the trigger. -/
theorem decodeLed_congr {p : Params} (hp : Placed p) {w raw : Word} (h : w &&& fieldMask p = raw &&& fieldMask p)
    (i : Fin 3) : decodeLed p w i = decodeLed p raw i := by
  obtain ⟨b10, b100, b1000, bAct⟩ := hp.bits
  have htrigger {b : Nat} (hb : b ≤ 3) : w.getLsbD (p.nibOff.get i + b) = raw.getLsbD (p.nibOff.get i + b) :=
    getLsbD_eq_of_and_fieldMask_eq h (fieldMask_trigger hp i hb)
  have halow := getLsbD_eq_of_and_fieldMask_eq h (fieldMask_alow hp i)
  have h2500 : (w.getLsbD (p.bit2500m.get i) && p.has2500m) = (raw.getLsbD (p.bit2500m.get i) && p.has2500m) := by
    cases hhas : p.has2500m with
    | false => simp only [Bool.and_false]
    | true => rw [getLsbD_eq_of_and_fieldMask_eq h (fieldMask_bit2500m hp i hhas)]
  simp only [decodeLed, htrigger b10, htrigger b100, htrigger b1000, htrigger bAct, halow, h2500]

/-- R131: the blink/duty pattern depends on field bits only. -/
theorem bdPattern_congr {p : Params} (hp : Placed p) {w raw : Word} (h : w &&& fieldMask p = raw &&& fieldMask p) :
    bdPattern p w = bdPattern p raw := by
  apply Nat.eq_of_testBit_eq
  intro k
  rw [testBit_bdPattern hp, testBit_bdPattern hp]
  by_cases hk : k < 4
  · rw [getLsbD_eq_of_and_fieldMask_eq h (fieldMask_bd hp hk)]
  · simp only [hk, decide_false, Bool.false_and]

/-- R131: LED_DECODE depends on field bits only. -/
theorem decodeConfig_congr {p : Params} (hp : Placed p) {w raw : Word} (h : w &&& fieldMask p = raw &&& fieldMask p) :
    decodeConfig p w = decodeConfig p raw := by
  simp only [decodeConfig, bdPattern_congr hp h, funext (decodeLed_congr hp h)]

@[simp] theorem decodeConfig_leds_get (p : Params) (raw : Word) (i : Fin 3) :
    (decodeConfig p raw).leds.get i = decodeLed p raw i := by
  fin_cases i <;> rfl

/-- R130: the pair of a decoded configuration. -/
theorem decodeConfig_pair (p : Params) (raw : Word) :
    ((decodeConfig p raw).blinkInterval, (decodeConfig p raw).dutyPermille) = bdDecode p (bdPattern p raw) := rfl

/-- R25: the four positions in a nibble are the four triggers'. -/
theorem trigger_position {p : Params} (hp : Placed p) {k : Nat} (hk : k < 4) :
    k = p.bit10m ∨ k = p.bit100m ∨ k = p.bit1000m ∨ k = p.bitAct := by
  obtain ⟨b10, b100, b1000, bAct⟩ := hp.bits
  obtain ⟨n1, n2, n3, n4, n5, n6⟩ := hp.distinct
  omega

/-- Words that give LED i the same setting agree on its nibble. -/
theorem getLsbD_nibble_eq {p : Params} (hp : Placed p) {w raw : Word} {i : Fin 3}
    (h : decodeLed p w i = decodeLed p raw i) {k : Nat} (hk : k < 4) :
    w.getLsbD (p.nibOff.get i + k) = raw.getLsbD (p.nibOff.get i + k) := by
  rcases trigger_position hp hk with rfl | rfl | rfl | rfl
  · exact congrArg LedSetting.link10 h
  · exact congrArg LedSetting.link100 h
  · exact congrArg LedSetting.link1000 h
  · rw [Bool.eq_iff_iff, ← decodeLed_activity_iff, ← decodeLed_activity_iff, h]

/-- Words that give every LED the same setting agree on every field bit but the blink/duty pattern's. -/
theorem getLsbD_eq_of_decodeLed_eq {p : Params} (hp : Placed p) {w raw : Word}
    (h : ∀ i, decodeLed p w i = decodeLed p raw i) {j : Nat} (hj : (fieldMask p).getLsbD j = true)
    (hbd : (maskAt p.bdLo 4).getLsbD j = false) : w.getLsbD j = raw.getLsbD j := by
  obtain ⟨hj32, hfield⟩ := (getLsbD_fieldMask hp j).mp hj
  rcases hfield with ⟨i, hlo, hhi⟩ | ⟨hlo, hhi⟩ | ⟨i, rfl⟩ | ⟨hhas, i, rfl⟩
  · obtain ⟨k, rfl⟩ := Nat.exists_eq_add_of_le hlo
    exact getLsbD_nibble_eq hp (h i) (by omega)
  · rw [getLsbD_maskAt, decide_eq_true hlo, decide_eq_true hhi, decide_eq_true hj32] at hbd
    cases hbd
  · exact congrArg LedSetting.activeLow (h i)
  · simpa only [decodeLed, hhas, Bool.and_true] using congrArg LedSetting.link2500 (h i)

/-- Words that give every LED the same setting have the same field bits outside the blink/duty pattern. -/
theorem and_fieldMask_eq_outside_bd {p : Params} (hp : Placed p) {w raw : Word}
    (h : ∀ i, decodeLed p w i = decodeLed p raw i) :
    w &&& fieldMask p &&& ~~~ maskAt p.bdLo 4 = raw &&& fieldMask p &&& ~~~ maskAt p.bdLo 4 := by
  apply BitVec.eq_of_getLsbD_eq
  intro j hj
  simp only [BitVec.getLsbD_and, BitVec.getLsbD_not, hj, decide_true, Bool.true_and]
  cases hfield : (fieldMask p).getLsbD j with
  | false => simp only [Bool.and_false, Bool.false_and]
  | true =>
    cases hbd : (maskAt p.bdLo 4).getLsbD j with
    | true => simp only [Bool.not_true, Bool.and_false]
    | false => rw [getLsbD_eq_of_decodeLed_eq hp h hfield hbd]

/-- Words with the same blink/duty pattern have the same bits there. -/
theorem and_bdMask_eq {p : Params} (hp : Placed p) {w raw : Word} (h : bdPattern p w = bdPattern p raw) :
    w &&& maskAt p.bdLo 4 = raw &&& maskAt p.bdLo 4 := by
  apply BitVec.eq_of_getLsbD_eq
  intro j _
  rw [BitVec.getLsbD_and, BitVec.getLsbD_and]
  cases hbd : (maskAt p.bdLo 4).getLsbD j with
  | false => simp only [Bool.and_false]
  | true =>
    simp only [getLsbD_maskAt, Bool.and_eq_true, decide_eq_true_eq] at hbd
    obtain ⟨⟨hlo, hhi⟩, -⟩ := hbd
    obtain ⟨k, rfl⟩ := Nat.exists_eq_add_of_le hlo
    have hk : k < 4 := by omega
    have hbit := congrArg (·.testBit k) h
    simp only [testBit_bdPattern hp, hk, decide_true, Bool.true_and] at hbit
    rw [hbit]

/-- The converse of R131: words that give every LED the same setting and have the same pattern have the same field
bits. -/
theorem and_fieldMask_eq_of_fields_eq {p : Params} (hp : Placed p) {w raw : Word}
    (hleds : ∀ i, decodeLed p w i = decodeLed p raw i) (hbd : bdPattern p w = bdPattern p raw) :
    w &&& fieldMask p = raw &&& fieldMask p := by
  have split (x : Word) : x &&& fieldMask p =
      x &&& fieldMask p &&& ~~~ maskAt p.bdLo 4 ||| x &&& maskAt p.bdLo 4 &&& fieldMask p := by
    ext j
    simp only [BitVec.getElem_and, BitVec.getElem_or, BitVec.getElem_not]
    cases x[j] <;> cases (fieldMask p)[j] <;> simp
  rw [split w, split raw, and_fieldMask_eq_outside_bd hp hleds, and_bdMask_eq hp hbd]

/-! ### The blink/duty table -/

/-- R133: a defined pattern decodes to its entry. -/
theorem bdDecode_of_some {p : Params} {pattern : Nat} {e : Interval × Nat} (h : bdEntry p pattern = some e) :
    bdDecode p pattern = e := by
  rw [bdDecode, h, Option.getD_some]

/-- R133: an undefined pattern decodes to the sentinel pair. -/
theorem bdDecode_of_none {p : Params} {pattern : Nat} (h : bdEntry p pattern = none) :
    bdDecode p pattern = (.linkSpeedDependent, p.dutySentinel) := by
  rw [bdDecode, h, Option.getD_none]

/-- R7 condition 8: some pattern has the sentinel pair. -/
theorem exists_sentinel_pattern {p : Params} (h : paramsOk p = true) :
    ∃ pattern, pattern < 16 ∧ bdEntry p pattern = some (.linkSpeedDependent, p.dutySentinel) := by
  simp only [paramsOk, bdTableInjective, sentinelInTable, Bool.and_eq_true, decide_eq_true_eq,
    List.contains_iff_mem] at h
  obtain ⟨⟨⟨-, hlength, -⟩, -⟩, hmem⟩ := h
  obtain ⟨pattern, hlt, he⟩ := List.getElem_of_mem hmem
  exact ⟨pattern, hlength ▸ hlt, by rw [bdEntry, List.getD_eq_getElem _ _ hlt, he]⟩

/-- R134: whatever the pattern, the pair it decodes to is in the table. -/
theorem exists_pattern_bdDecode {p : Params} (h : paramsOk p = true) (raw : Word) :
    ∃ pattern, pattern < 16 ∧ bdEntry p pattern = some (bdDecode p (bdPattern p raw)) := by
  cases he : bdEntry p (bdPattern p raw) with
  | some e => exact ⟨_, bdPattern_lt (placed_of_paramsOk h) raw, by rw [he, bdDecode_of_some he]⟩
  | none => rw [bdDecode_of_none he]; exact exists_sentinel_pattern h

/-! ### What LED_ENCODE accepts and answers -/

/-- R142: a pair without a pattern, or a 2500M trigger that the variant lacks, is not encoded. -/
theorem encodeConfig_of_unsupported {p : Params} {c : LedConfiguration}
    (h : bdInv p (c.blinkInterval, c.dutyPermille) = none ∨ p.has2500m = false ∧ asks2500m c = true) :
    encodeConfig p c = .err .unsupportedConfiguration := by
  rcases encodeConfig_cases p c with ⟨-, herr⟩ | ⟨pattern, hasks, hinv, -⟩
  · exact herr
  · rcases h with h | ⟨hhas, hask⟩
    · cases h.symm.trans hinv
    · simp [hhas, hask] at hasks

/-- R142: every other configuration is encoded. -/
theorem exists_encodeConfig_of_supported {p : Params} {c : LedConfiguration}
    (h : ¬ (bdInv p (c.blinkInterval, c.dutyPermille) = none ∨ p.has2500m = false ∧ asks2500m c = true)) :
    ∃ raw, encodeConfig p c = .ok raw := by
  rcases encodeConfig_cases p c with ⟨hun, -⟩ | ⟨pattern, -, -, hok⟩
  · exact absurd (hun.symm.imp_right And.symm) h
  · exact ⟨_, hok⟩

/-- R140: LED_ENCODE's results are the words of the configurations it accepts. -/
theorem encodeConfig_eq_ok_iff {p : Params} {c : LedConfiguration} {raw : Word} :
    encodeConfig p c = .ok raw ↔ ∃ pattern, (p.has2500m = true ∨ asks2500m c = false) ∧
      bdInv p (c.blinkInterval, c.dutyPermille) = some pattern ∧ raw = encodeWord p c pattern := by
  rcases encodeConfig_cases p c with ⟨hun, herr⟩ | ⟨pattern, hasks, hinv, hok⟩
  · rw [herr]
    refine ⟨nofun, ?_⟩
    rintro ⟨pattern, hasks, hinv, -⟩
    rcases hun with ⟨hask, hhas⟩ | hnone
    · simp [hhas, hask] at hasks
    · cases hnone.symm.trans hinv
  · rw [hok, Result.ok.injEq]
    constructor
    · rintro rfl
      exact ⟨pattern, hasks, hinv, rfl⟩
    · rintro ⟨pattern', -, hinv', rfl⟩
      cases hinv.symm.trans hinv'
      rfl

/-- LED_ENCODE completes with `raw` when the configuration is encoded as `raw`. -/
theorem exec_ledEncode_of_ok {a : Arg LedConfiguration} {c : LedConfiguration} {s : State} {raw : Word}
    (ha : DenotesConfig a s c) (h : encodeConfig s.params c = .ok raw) :
    exec (.ledEncode a) s = .next { s with res := some (.u32 raw), pc := s.pc + 1 } := by
  rw [exec_ledEncode ha, h]
  rfl

/-- LED_ENCODE ends with the error when the configuration is not encoded. -/
theorem exec_ledEncode_of_err {a : Arg LedConfiguration} {c : LedConfiguration} {s : State} {e : Error}
    (ha : DenotesConfig a s c) (h : encodeConfig s.params c = .err e) :
    exec (.ledEncode a) s = .next { s with handle := .closed, status := .error e } := by
  rw [exec_ledEncode ha, h]
  rfl

/-- LED_ENCODE completes with `raw` only when the configuration is encoded as `raw`: an error leaves pc as it was. -/
theorem encodeConfig_of_exec {c : LedConfiguration} {s : State} {raw : Word}
    (h : exec (.ledEncode (.lit c)) s = .next { s with res := some (.u32 raw), pc := s.pc + 1 }) :
    encodeConfig s.params c = .ok raw := by
  cases henc : encodeConfig s.params c with
  | ok w =>
    rw [exec_ledEncode_of_ok (.inl rfl) henc] at h
    cases congrArg State.res (Host.Outcome.next.inj h)
    rfl
  | err e =>
    rw [exec_ledEncode_of_err (.inl rfl) henc] at h
    exact absurd (congrArg State.pc (Host.Outcome.next.inj h)) (Nat.ne_of_lt (Nat.lt_succ_self s.pc))
  | refused q =>
    rcases encodeConfig_cases s.params c with ⟨-, herr⟩ | ⟨pattern, -, -, hok⟩
    · cases henc.symm.trans herr
    · cases henc.symm.trans hok

/-- LED_DECODE completes with the decoded configuration, in every state. -/
theorem exec_ledDecode_next {a : Arg Word} {raw : Word} {s : State} (ha : DenotesU32 a s raw) :
    exec (.ledDecode a) s = .next { s with res := some (.config (decodeConfig s.params raw)), pc := s.pc + 1 } :=
  exec_ledDecode ha

/-! ### The two directions -/

/-- R141: the bits that an accepted configuration sets lie in fields. -/
theorem encodeWord_and_reservedMask {p : Params} (hp : Placed p) {c : LedConfiguration} {pattern : Nat}
    (hlt : pattern < 16) (hasks : p.has2500m = true ∨ asks2500m c = false) :
    encodeWord p c pattern &&& reservedMask p = 0 := by
  obtain ⟨b10, b100, b1000, bAct⟩ := hp.bits
  apply and_reserved_eq_zero
  intro j hj
  rw [getLsbD_encodeWord_iff p c (BitVec.lt_of_getLsbD hj)] at hj
  rcases hj with ⟨i, htrigger | ⟨h2500, rfl⟩ | ⟨-, rfl⟩⟩ | ⟨hlo, hbit⟩
  · rcases htrigger with ⟨-, rfl⟩ | ⟨-, rfl⟩ | ⟨-, rfl⟩ | ⟨-, rfl⟩
    · exact fieldMask_trigger hp i b10
    · exact fieldMask_trigger hp i b100
    · exact fieldMask_trigger hp i b1000
    · exact fieldMask_trigger hp i bAct
  · rcases hasks with hhas | hnone
    · exact fieldMask_bit2500m hp i hhas
    · cases h2500.symm.trans (link2500_of_asks hnone i)
  · exact fieldMask_alow hp i
  · obtain ⟨k, rfl⟩ := Nat.exists_eq_add_of_le hlo
    rw [Nat.add_sub_cancel_left] at hbit
    exact fieldMask_bd hp (testBit_pattern_lt hlt hbit)

/-- A configuration is its LEDs and its pair. -/
theorem ledConfiguration_ext {c d : LedConfiguration} (hleds : ∀ i, c.leds.get i = d.leds.get i)
    (hpair : (c.blinkInterval, c.dutyPermille) = (d.blinkInterval, d.dutyPermille)) : c = d := by
  obtain ⟨⟨c0, c1, c2⟩, iv, duty⟩ := c
  obtain ⟨⟨d0, d1, d2⟩, iv', duty'⟩ := d
  cases hpair
  cases hleds 0
  cases hleds 1
  cases hleds 2
  rfl

/-- What an LED_ENCODE result is: no reserved bit, the configuration's LEDs, and a pattern with its pair. -/
structure Encoded (p : Params) (c : LedConfiguration) (raw : Word) : Prop where
  reserved : raw &&& reservedMask p = 0#32
  leds : ∀ i, decodeLed p raw i = c.leds.get i
  pair : bdEntry p (bdPattern p raw) = some (c.blinkInterval, c.dutyPermille)
  link2500 : ∀ i, raw.getLsbD (p.bit2500m.get i) = (c.leds.get i).link2500

/-- R140, R141, R150: every LED_ENCODE result is so. -/
theorem encoded_of_encodeConfig {p : Params} (h : paramsOk p = true) {c : LedConfiguration} {raw : Word}
    (henc : encodeConfig p c = .ok raw) : Encoded p c raw := by
  have hp := placed_of_paramsOk h
  obtain ⟨pattern, hasks, hinv, rfl⟩ := encodeConfig_eq_ok_iff.mp henc
  obtain ⟨hlt, he⟩ := bdInv_some hinv
  exact {
    reserved := encodeWord_and_reservedMask hp hlt hasks
    leds := fun i => decodeLed_encodeWord hp c hlt i (hasks.imp_right (link2500_of_asks · i))
    pair := by rw [bdPattern_encodeWord hp c hlt, he]
    link2500 := encodeWord_bit2500m hp c hlt }

/-- R150: LED_DECODE of an LED_ENCODE result gives the configuration back. -/
theorem Encoded.decodeConfig_eq {p : Params} {c : LedConfiguration} {raw : Word} (h : Encoded p c raw) :
    decodeConfig p raw = c := by
  apply ledConfiguration_ext
  · intro i
    rw [decodeConfig_leds_get, h.leds]
  · rw [decodeConfig_pair, bdDecode_of_some h.pair]

/-- R134: a decoded configuration asks for no 2500M trigger that the variant lacks. -/
theorem decodeLed_link2500 {p : Params} (hhas : p.has2500m = false) (raw : Word) (i : Fin 3) :
    (decodeLed p raw i).link2500 = false := by
  simp only [decodeLed, hhas, Bool.and_false]

/-- R134: a decoded configuration is none that the variant's missing trigger refuses. -/
theorem asks2500m_decodeConfig {p : Params} (hhas : p.has2500m = false) (raw : Word) :
    asks2500m (decodeConfig p raw) = false := by
  rw [Bool.eq_false_iff, Ne, asks2500m_iff]
  rintro ⟨i, hask⟩
  rw [decodeConfig_leds_get, decodeLed_link2500 hhas] at hask
  cases hask

/-- R134: LED_ENCODE never fails on a decoded configuration. -/
theorem exists_encodeConfig_decodeConfig {p : Params} (h : paramsOk p = true) (raw : Word) :
    ∃ r, encodeConfig p (decodeConfig p raw) = .ok r := by
  obtain ⟨pattern, hlt, he⟩ := exists_pattern_bdDecode h raw
  refine ⟨_, encodeConfig_eq_ok_iff.mpr ⟨pattern, ?_, bdInv_bdEntry h hlt he, rfl⟩⟩
  cases hhas : p.has2500m with
  | true => exact .inl rfl
  | false => exact .inr (asks2500m_decodeConfig hhas raw)

/-- R151: encoding a decoded word gives every LED its setting in that word. -/
theorem Encoded.decodeLed_eq {p : Params} {raw r : Word} (h : Encoded p (decodeConfig p raw) r) (i : Fin 3) :
    decodeLed p r i = decodeLed p raw i :=
  (h.leds i).trans (decodeConfig_leds_get p raw i)

/-- R151: encoding a decoded word gives its pattern back where it is defined, as no other pattern has its pair. -/
theorem Encoded.bdPattern_eq {p : Params} (h : paramsOk p = true) {raw r : Word}
    (henc : Encoded p (decodeConfig p raw) r) (hsome : (bdEntry p (bdPattern p raw)).isSome = true) :
    bdPattern p r = bdPattern p raw := by
  have hp := placed_of_paramsOk h
  obtain ⟨e, he⟩ := Option.isSome_iff_exists.mp hsome
  have hpair := henc.pair
  rw [decodeConfig_pair, bdDecode_of_some he] at hpair
  have hr := bdInv_bdEntry h (bdPattern_lt hp r) hpair
  have hraw := bdInv_bdEntry h (bdPattern_lt hp raw) he
  exact Option.some.inj (hr.symm.trans hraw)

/-- R151: encoding a decoded word with a defined pattern keeps its field bits and clears its reserved bits. -/
theorem Encoded.eq_and_fieldMask {p : Params} (h : paramsOk p = true) {raw r : Word}
    (henc : Encoded p (decodeConfig p raw) r) (hsome : (bdEntry p (bdPattern p raw)).isSome = true) :
    r = raw &&& fieldMask p := by
  rw [← and_fieldMask_eq_self henc.reserved]
  exact and_fieldMask_eq_of_fields_eq (placed_of_paramsOk h) henc.decodeLed_eq (henc.bdPattern_eq h hsome)

end Sys2Proof.Machine
end

section
/-! Proofs of the LED codec's statements: for every well-formed `Params` first, then for the default layout. -/

namespace Sys2Proof.Machine

/-! ### Every well-formed `Params` -/

/-- Settles O16: the result carries every field of the configuration. -/
theorem ledDecodeInvertsEncode : Obligations.LedDecodeInvertsEncode := by
  intro s c raw h hexec
  have henc := encoded_of_encodeConfig h (encodeConfig_of_exec hexec)
  rw [exec_ledDecode_next (.inr ⟨rfl, rfl⟩), henc.decodeConfig_eq]

/-- Settles O17: the result `r` carries the LEDs of `raw`, no reserved bit, and the pattern of the decoded pair, which
is that of `raw` where it is defined. -/
theorem ledEncodeAfterDecodeNormalises : Obligations.LedEncodeAfterDecodeNormalises := by
  intro s raw h
  have hp := placed_of_paramsOk h
  obtain ⟨r, henc⟩ := exists_encodeConfig_decodeConfig h raw
  have hr := encoded_of_encodeConfig h henc
  have hdefined (hsome : (bdEntry s.params (bdPattern s.params raw)).isSome = true) : r = raw &&& fieldMask s.params :=
    hr.eq_and_fieldMask h hsome
  refine ⟨_, r, exec_ledDecode_next (.inl rfl), exec_ledEncode_of_ok (.inr ⟨rfl, rfl⟩) henc, ?_, ?_, hdefined, ?_⟩
  · constructor
    · rintro rfl
      exact ⟨hr.reserved, by rw [hr.pair]; rfl⟩
    · rintro ⟨hreserved, hsome⟩
      rw [hdefined hsome, and_fieldMask_eq_self hreserved]
  · constructor
    · rintro rfl
      exact ⟨_, exec_ledEncode_of_ok (.inl rfl) henc⟩
    · rintro ⟨c, hexec⟩
      have hc := encodeConfig_of_exec hexec
      rw [(encoded_of_encodeConfig h hc).decodeConfig_eq, hc] at henc
      exact (Result.ok.inj henc).symm
  · intro hnone
    refine ⟨_, bdPattern_lt hp r, ?_, rfl, ?_⟩
    · rw [hr.pair, decodeConfig_pair, bdDecode_of_none hnone]
    · rw [← and_fieldMask_eq_outside_bd hp hr.decodeLed_eq, and_fieldMask_eq_self hr.reserved]

/-- Settles O10: each field is read at its parameter's position by definition, and the pair by the table. -/
theorem ledDecodeReadsParameterFields : Obligations.LedDecodeReadsParameterFields := by
  intro a raw s ha
  refine ⟨_, exec_ledDecode_next ha, fun i => ?_, fun e he => bdDecode_of_some he,
    fun hnone => Prod.mk.inj (bdDecode_of_none hnone)⟩
  rw [decodeConfig_leds_get]
  exact ⟨rfl, rfl, rfl, Bool.and_comm _ _, decodeLed_activity_iff _ _ _, rfl⟩

/-- Settles O11: a mask of reserved bits flips no field bit. -/
theorem ledDecodeIgnoresReservedBits : Obligations.LedDecodeIgnoresReservedBits := by
  intro s raw m h hm
  rw [exec_ledDecode_next (.inl rfl), exec_ledDecode_next (.inl rfl),
    decodeConfig_congr (placed_of_paramsOk h) (xor_reserved_and_fieldMask hm)]

/-- Settles O12: an undefined pattern decodes to the sentinel pair, which is in the table. -/
theorem decodedConfigurationsEncode : Obligations.DecodedConfigurationsEncode := by
  intro s raw h
  obtain ⟨r, henc⟩ := exists_encodeConfig_decodeConfig h raw
  refine ⟨_, r, _, exec_ledDecode_next (.inl rfl), rfl, fun hhas i => ?_, exists_pattern_bdDecode h raw,
    exec_ledEncode_of_ok (.inr ⟨rfl, rfl⟩) henc⟩
  rw [decodeConfig_leds_get, decodeLed_link2500 hhas]

/-- Settles O14: `BD_INV` looks the pair up in the 16 patterns. -/
theorem ledEncodeFailsExactlyWhenUnsupported : Obligations.LedEncodeFailsExactlyWhenUnsupported := by
  intro a c s ha
  rw [← asks2500m_iff, ← bdInv_none]
  refine ⟨fun hun => exec_ledEncode_of_err ha (encodeConfig_of_unsupported hun), fun hsup => ?_⟩
  obtain ⟨raw, henc⟩ := exists_encodeConfig_of_supported hsup
  exact ⟨raw, exec_ledEncode_of_ok ha henc⟩

/-- Settles O15: a result is the word of an accepted configuration, which sets field bits only. -/
theorem ledEncodeClearsReservedBits : Obligations.LedEncodeClearsReservedBits := by
  intro s c raw h hexec
  exact (encoded_of_encodeConfig h (encodeConfig_of_exec hexec)).reserved

/-- Settles O23: the merge has the encoded word's field bits, because the earlier value gives only reserved ones. -/
theorem mergeKeepsReservedBitsAndFields : Obligations.MergeKeepsReservedBitsAndFields := by
  intro s u v c raw prev h hexec hdecode hparams
  have hraw := encoded_of_encodeConfig h (encodeConfig_of_exec hexec)
  have hfields : mergeReserved s.params raw prev &&& fieldMask s.params = raw &&& fieldMask s.params := by
    rw [mergeReserved, BitVec.and_or_distrib_right, BitVec.and_assoc prev, reservedMask_and_fieldMask, BitVec.and_zero,
      BitVec.or_zero]
  constructor
  · rw [exec_ledDecode_next (.inl rfl), hparams, decodeConfig_congr (placed_of_paramsOk h) hfields,
      hraw.decodeConfig_eq] at hdecode
    exact (congrArg State.res (Host.Outcome.next.inj hdecode)).symm
  · rw [mergeReserved, BitVec.and_or_distrib_right, hraw.reserved, BitVec.and_assoc, BitVec.and_self, BitVec.zero_or]

/-! ### LEDs that are off or show activity only (R152, R153) -/

/-- R152, R153: an LED with no link trigger and not active-low, which blinks on activity or is off. -/
def activityOnly (act : Bool) : LedSetting :=
  { LedSetting.off with activity := if act then .allSpeeds else .none }

/-- R152, R153: the two settings, field by field. -/
theorem eq_activityOnly_iff (s : LedSetting) (act : Bool) :
    s = activityOnly act ↔ (s.link10 = false ∧ s.link100 = false ∧ s.link1000 = false) ∧ s.link2500 = false ∧
      s.activity = (if act then .allSpeeds else .none) ∧ s.activeLow = false := by
  obtain ⟨l10, l100, l1000, l2500, activity, low⟩ := s
  simp [activityOnly, LedSetting.off, and_assoc]

/-- A nibble with its three low bits 0, bit by bit. -/
theorem extractLsb'_eq_cons_zero_iff (raw : Word) (lo : Nat) (act : Bool) :
    raw.extractLsb' lo 4 = BitVec.cons act 0#3 ↔
      (∀ b ∈ [0, 1, 2], raw.getLsbD (lo + b) = false) ∧ raw.getLsbD (lo + 3) = act := by
  have hbits : raw.extractLsb' lo 4 = BitVec.cons act 0#3 ↔
      ∀ k < 4, (raw.extractLsb' lo 4).getLsbD k = (BitVec.cons act 0#3).getLsbD k :=
    ⟨fun h _ _ => by rw [h], BitVec.eq_of_getLsbD_eq⟩
  rw [hbits]
  simp only [Nat.forall_lt_succ_right]
  simp [BitVec.getElem_cons, and_assoc]

/-- R152, R153 with R74: on well-formed parameters the nibble's three low bits are the link triggers', and bit 3 the
activity trigger's. -/
theorem decodeLed_eq_activityOnly_iff {p : Params} (h : paramsOk p = true) {raw : Word} {i : Fin 3} (act : Bool)
    (h2500 : (decodeLed p raw i).link2500 = raw.getLsbD (p.bit2500m.get i)) :
    decodeLed p raw i = activityOnly act ↔ raw.extractLsb' (p.nibOff.get i) 4 = BitVec.cons act 0#3 ∧
      raw.getLsbD (p.bit2500m.get i) = false ∧ raw.getLsbD (p.bitAlow.get i) = false := by
  obtain ⟨-, -, hAct, hlinks, -, -⟩ := exampleFixesNibbleLayout p h
  have hlinkBits : ((decodeLed p raw i).link10 = false ∧ (decodeLed p raw i).link100 = false ∧
      (decodeLed p raw i).link1000 = false) ↔ ∀ b ∈ [0, 1, 2], raw.getLsbD (p.nibOff.get i + b) = false := by
    simp only [← hlinks]
    simp [decodeLed]
  have hactBit : (decodeLed p raw i).activity = (if act then .allSpeeds else .none) ↔
      raw.getLsbD (p.nibOff.get i + 3) = act := by
    rw [← hAct]
    simp only [decodeLed]
    cases raw.getLsbD (p.nibOff.get i + p.bitAct) <;> cases act <;> decide
  have halow : (decodeLed p raw i).activeLow = raw.getLsbD (p.bitAlow.get i) := rfl
  rw [eq_activityOnly_iff, extractLsb'_eq_cons_zero_iff, hlinkBits, hactBit, h2500, halow]
  tauto

/-- Settles O18: each half reads the LED off the word, where its two settings are its bits. -/
theorem offAndActivityOnlyLedsAreStable : Obligations.OffAndActivityOnlyLedsAreStable := by
  refine ⟨fun s c raw i h hexec => ?_, fun s raw i h h2500 halow => ?_⟩
  · have hraw := encoded_of_encodeConfig h (encodeConfig_of_exec hexec)
    have hbit : (decodeLed s.params raw i).link2500 = raw.getLsbD (s.params.bit2500m.get i) := by
      rw [hraw.leds, hraw.link2500]
    have hled (act : Bool) := decodeLed_eq_activityOnly_iff h act hbit
    rw [hraw.leds] at hled
    exact ⟨hled false, hled true⟩
  · have hbit : (decodeLed s.params raw i).link2500 = raw.getLsbD (s.params.bit2500m.get i) := by
      simp only [decodeLed, h2500, Bool.false_and]
    refine ⟨_, exec_ledDecode_next (.inl rfl), ?_⟩
    rw [decodeConfig_leds_get]
    exact ⟨fun hnib => (decodeLed_eq_activityOnly_iff h false hbit).mpr ⟨hnib, h2500, halow⟩,
      fun hnib => (decodeLed_eq_activityOnly_iff h true hbit).mpr ⟨hnib, h2500, halow⟩⟩

/-! ### The default layout and the example (R24, R31, R154) -/

/-- R7, R24: the default layout is well-formed on both variants. -/
theorem paramsOk_default (has : Bool) : paramsOk { defaultParams with has2500m := has } = true := by
  cases has <;> decide

/-- Settles O19: R7 condition 7 gives the first part; the second reads none of the OPEN parameters but the
variant. -/
theorem exampleWordDecodes : Obligations.ExampleWordDecodes := by
  refine ⟨fun s h => ?_, fun has base timeout vid pid d => ?_⟩
  · rw [← decodeConfig_exampleWord h]
    exact exec_ledDecode_next (.inl rfl)
  · exact paramsOk_default has

/-- R24: the default positions that depend on the LED. -/
theorem default_positions : ∀ i : Fin 3, defaultParams.nibOff.get i = 4 * i ∧ defaultParams.bit2500m.get i = 20 + i ∧
    defaultParams.bitAlow.get i = 24 + i := by
  decide

/-- R28: the default pattern, as its interval's and its duty cycle's two bits. -/
theorem bdPattern_default (has : Bool) (raw : Word) :
    bdPattern { defaultParams with has2500m := has } raw =
      4 * (raw.extractLsb' 18 2).toNat + (raw.extractLsb' 16 2).toNat := by
  change (raw.extractLsb' 16 4).toNat = _
  simp only [BitVec.extractLsb'_toNat, Nat.shiftRight_eq_div_pow]
  omega

/-- R31: bits 19..18 of a word select the interval and bits 17..16 the duty cycle. -/
theorem bdEntry_bdPattern_default (has : Bool) (raw : Word) :
    bdEntry { defaultParams with has2500m := has } (bdPattern { defaultParams with has2500m := has } raw) =
      some (defaultInterval (raw.extractLsb' 18 2).toFin, defaultDuty (raw.extractLsb' 16 2).toFin) := by
  rw [bdPattern_default]
  exact bdEntry_default (raw.extractLsb' 18 2).toFin (raw.extractLsb' 16 2).toFin

/-- A two-bit field of a word is its two bits, the upper one first. -/
theorem extractLsb'_two (raw : Word) (lo : Nat) :
    raw.extractLsb' lo 2 = BitVec.ofBool (raw.getLsbD (lo + 1)) ++ BitVec.ofBool (raw.getLsbD lo) := by
  have bits : ∀ b : BitVec 2, b = BitVec.ofBool (b.getLsbD 1) ++ BitVec.ofBool (b.getLsbD 0) := by decide
  simpa only [BitVec.getLsbD_extractLsb', Nat.one_lt_ofNat, Nat.ofNat_pos, decide_true, Bool.true_and,
    Nat.add_zero] using bits (raw.extractLsb' lo 2)

/-- R31: the interval that two bits of a word select, the upper one first. -/
theorem defaultInterval_extractLsb' (raw : Word) (lo : Nat) : defaultInterval (raw.extractLsb' lo 2).toFin =
    (match raw.getLsbD (lo + 1), raw.getLsbD lo with
    | false, false => .fixed0 | false, true => .fixed1
    | true, false => .fixed2 | true, true => .linkSpeedDependent) := by
  rw [extractLsb'_two]
  cases raw.getLsbD (lo + 1) <;> cases raw.getLsbD lo <;> rfl

/-- R31: the duty cycle that two bits of a word select, the upper one first. -/
theorem defaultDuty_extractLsb' (raw : Word) (lo : Nat) : defaultDuty (raw.extractLsb' lo 2).toFin =
    (match raw.getLsbD (lo + 1), raw.getLsbD lo with
    | false, false => 125 | false, true => 250 | true, false => 500 | true, true => 750) := by
  rw [extractLsb'_two]
  cases raw.getLsbD (lo + 1) <;> cases raw.getLsbD lo <;> rfl

/-- Settles O9: the fields of R130 at the default positions, and the default entry of the four pattern bits. -/
theorem ledDecodeReadsDefaultBitMap : Obligations.LedDecodeReadsDefaultBitMap := by
  intro a raw has s ha hparams
  obtain ⟨c, hexec, hleds, hdefined, -⟩ := ledDecodeReadsParameterFields a raw s ha
  rw [hparams] at hleds hdefined
  obtain ⟨hinterval, hduty⟩ := Prod.mk.inj (hdefined _ (bdEntry_bdPattern_default has raw))
  refine ⟨c, hexec, fun i => ?_, ?_, ?_⟩
  · obtain ⟨hnib, h2500, halow⟩ := default_positions i
    rw [← hnib, ← h2500, ← halow]
    exact hleds i
  · exact hinterval.trans (defaultInterval_extractLsb' raw 18)
  · exact hduty.trans (defaultDuty_extractLsb' raw 16)

/-- R31: the two bits of an interval. -/
theorem intervalBits_defaultInterval : ∀ b : BitVec 2, b = (match defaultInterval b.toFin with
    | .fixed0 => 0b00 | .fixed1 => 0b01 | .fixed2 => 0b10 | .linkSpeedDependent => 0b11) := by
  decide

/-- R31: the two bits of a duty cycle. -/
theorem dutyBits_defaultDuty : ∀ b : BitVec 2, b = (if defaultDuty b.toFin = 125 then 0b00
    else if defaultDuty b.toFin = 250 then 0b01 else if defaultDuty b.toFin = 500 then 0b10 else 0b11) := by
  decide

/-- R31: the pattern bits of a word that the default layout gives for a configuration. -/
theorem Encoded.default_pair {has : Bool} {c : LedConfiguration} {raw : Word}
    (h : Encoded { defaultParams with has2500m := has } c raw) :
    defaultInterval (raw.extractLsb' 18 2).toFin = c.blinkInterval ∧
      defaultDuty (raw.extractLsb' 16 2).toFin = c.dutyPermille :=
  Prod.mk.inj (Option.some.inj ((bdEntry_bdPattern_default has raw).symm.trans h.pair))

/-- R29, R141: the bits that no variant of the default layout assigns are 0. -/
theorem Encoded.default_reserved {has : Bool} {c : LedConfiguration} {raw : Word}
    (h : Encoded { defaultParams with has2500m := has } c raw) : raw &&& 0xF880F000 = 0 := by
  have hmask : reservedMask { defaultParams with has2500m := has } &&& 0xF880F000 = 0xF880F000 := by
    rw [reservedMask_default]
    cases has <;> rfl
  rw [← hmask, ← BitVec.and_assoc, h.reserved]
  exact BitVec.zero_and

/-- R31, R142: the default table has no pattern for a pair exactly when its duty cycle is unsupported. -/
theorem bdInv_default_eq_none_iff (has : Bool) (iv : Interval) (d : Nat) :
    bdInv { defaultParams with has2500m := has } (iv, d) = none ↔ d ∉ [125, 250, 500, 750] := by
  obtain ⟨-, hsome, -⟩ := defaultTableInverse
  rw [← hsome iv d, Bool.not_eq_true, Option.isSome_eq_false_iff, Option.isNone_iff_eq_none]
  rfl

/-- Settles O13: the default table lacks exactly the unsupported duty cycles, and the word encoded carries each field of
the configuration at its default position. -/
theorem ledEncodeWritesDefaultBitMap : Obligations.LedEncodeWritesDefaultBitMap := by
  intro a c has s ha hparams
  rw [← asks2500m_iff, ← bdInv_default_eq_none_iff has c.blinkInterval]
  refine ⟨fun hun => exec_ledEncode_of_err ha (encodeConfig_of_unsupported ?_), fun hduty hlinks => ?_⟩
  · rw [hparams]
    exact hun
  have hsup : ¬ (bdInv s.params (c.blinkInterval, c.dutyPermille) = none ∨
      s.params.has2500m = false ∧ asks2500m c = true) := by
    rw [hparams, bdInv_default_eq_none_iff, asks2500m_iff]
    rintro (hnone | ⟨hhas, i, hask⟩)
    · exact hnone hduty
    · cases (hlinks hhas i).symm.trans hask
  obtain ⟨raw, henc⟩ := exists_encodeConfig_of_supported hsup
  have hraw := encoded_of_encodeConfig (hparams ▸ paramsOk_default has) henc
  rw [hparams] at hraw
  obtain ⟨hinterval, hdutyBits⟩ := hraw.default_pair
  refine ⟨raw, exec_ledEncode_of_ok ha henc, fun i => ?_, ?_, ?_, hraw.default_reserved⟩
  · obtain ⟨hnib, h2500, halow⟩ := default_positions i
    have hlink := hraw.link2500 i
    rw [← hraw.leds i] at hlink ⊢
    rw [← hnib, ← h2500, ← halow]
    exact ⟨rfl, rfl, rfl, (decodeLed_activity_iff _ raw i).symm, hlink, rfl⟩
  · rw [← hinterval]
    exact intervalBits_defaultInterval _
  · rw [← hdutyBits]
    exact dutyBits_defaultDuty _

end Sys2Proof.Machine
end

section
/-! The session's transfers, answer by answer: what a register read and a register write give for a failed, a short and
a complete transfer (R55 to R57, R171, R180 to R195), and the checks before a raw transfer (R205). -/

namespace Sys2Proof.Machine

/-! ### A register read -/

/-- R171, R172: the state that a read leaves, by what the log shows of it. -/
def State.afterRead (s : State) (off w : Nat) (outcome : ReadOutcome) : State :=
  { s with oracle := (drawRead s.oracle).2, log := s.log ++ [.read off w (indexField s.params w) outcome] }

/-- R55, R57: the value of a complete w-bit read at `off`, for a device draw `d`. -/
def readValue (p : Params) (dev : DevState) (off w : Nat) (d : Word) : Word :=
  leValue (readBytes p dev off (w / 8) (w / 8) d)

/-- R55: a complete 32-bit read at `LED_REG` gives the register's value. -/
theorem readValue_ledReg (p : Params) (dev : DevState) (d : Word) :
    readValue p dev p.ledReg 32 d = ledReadValue p dev d := by
  rw [readValue, readBytes, if_pos ⟨rfl, rfl, rfl⟩, leValue_leBytes (ledReadValue p dev d).isLt]

/-- R57: every other complete read gives the low bits of the draw. -/
theorem toNat_readValue_of_not_ledReg {p : Params} {dev : DevState} {off w : Nat} (hw : w ∈ Config.widths)
    (h : ¬ (off = p.ledReg ∧ w = 32)) (d : Word) : (readValue p dev off w d).toNat = d.toNat % 2 ^ w := by
  obtain ⟨hbits, hle, -⟩ := width_cases hw
  have hdraw : readBytes p dev off (w / 8) (w / 8) d = leBytes (w / 8) d :=
    if_neg fun ⟨hoff, hfour, _⟩ => h ⟨hoff, by omega⟩
  rw [readValue, hdraw, toNat_leValue ((length_leBytes _ d).trans_le hle), leSum_leBytes, hbits]

/-- R111: the value of a w-bit read is below 2^w. -/
theorem toNat_readValue_lt {w : Nat} (hw : w ∈ Config.widths) (p : Params) (dev : DevState) (off : Nat) (d : Word) :
    (readValue p dev off w d).toNat < 2 ^ w :=
  toNat_leValue_lt hw (length_readBytes ..)

/-- R121: a complete read carries the bytes of its value. -/
theorem leBytes_readValue {w : Nat} (hw : w ∈ Config.widths) (p : Params) (dev : DevState) (off : Nat) (d : Word) :
    leBytes (w / 8) (readValue p dev off w d) = readBytes p dev off (w / 8) (w / 8) d :=
  leBytes_leValue_width hw (length_readBytes ..)

/-- R170: a failed read raises its failure's error. -/
theorem readRegister_of_err {off w : Nat} {s : State} {f : TransportFault} (hw : w ∈ Config.widths)
    (h : (drawRead s.oracle).1 = .err f) :
    readRegister off w s = (.err (faultError f), s.afterRead off w (.err f)) := by
  obtain ⟨hbits, -, -⟩ := width_cases hw
  rcases memRead_cases off (w / 8) s with ⟨f', h', hmem⟩ | ⟨k, d, h', -⟩ <;> cases h.symm.trans h'
  rw [readRegister, hmem, hbits]
  rfl

/-- R170, LOG 16: a read that brings k bytes unpacks them, or all it asked for where k is more. -/
theorem readRegister_of_ok {off w k : Nat} {d : Word} {s : State} (hw : w ∈ Config.widths)
    (h : (drawRead s.oracle).1 = .ok k d) :
    readRegister off w s = (unpack (readBytes s.params s.dev off (w / 8) (min k (w / 8)) d) w,
      s.afterRead off w (.ok (min k (w / 8)) (readBytes s.params s.dev off (w / 8) (min k (w / 8)) d))) := by
  obtain ⟨hbits, -, -⟩ := width_cases hw
  rcases memRead_cases off (w / 8) s with ⟨f, h', -⟩ | ⟨k', d', h', hmem⟩ <;> cases h.symm.trans h'
  rw [readRegister, hmem, hbits]
  rfl

/-- D23: a short read has the wrong length to unpack. -/
theorem readRegister_of_short {off w k : Nat} {d : Word} {s : State} (hw : w ∈ Config.widths)
    (h : (drawRead s.oracle).1 = .ok k d) (hk : k < w / 8) :
    readRegister off w s = (.err .invalidWidth,
      s.afterRead off w (.ok k (readBytes s.params s.dev off (w / 8) k d))) := by
  have hlen : (readBytes s.params s.dev off (w / 8) k d).length ≠ w / 8 := by
    rw [length_readBytes]
    exact Nat.ne_of_lt hk
  rw [readRegister_of_ok hw h, Nat.min_eq_left (Nat.le_of_lt hk), unpack, if_pos hw, if_neg hlen]

/-- R180, R190: a complete read gives its value and logs the value's bytes. -/
theorem readRegister_of_complete {off w k : Nat} {d : Word} {s : State} (hw : w ∈ Config.widths)
    (h : (drawRead s.oracle).1 = .ok k d) (hk : w / 8 ≤ k) :
    readRegister off w s = (.ok (readValue s.params s.dev off w d),
      s.afterRead off w (.ok (w / 8) (leBytes (w / 8) (readValue s.params s.dev off w d)))) := by
  rw [readRegister_of_ok hw h, Nat.min_eq_right hk, unpack, if_pos hw, if_pos (length_readBytes ..),
    leBytes_readValue hw]
  rfl

/-- R55: the cases of `ledReadValue_cases` as implications, the form in which the statements ask for them. -/
theorem ledReadValue_spec (p : Params) (dev : DevState) (d : Word) :
    (dev.known = false → ledReadValue p dev d = d) ∧
      (dev.known = true → dev.led &&& reservedMask p = 0 → ledReadValue p dev d = dev.led) ∧
      (dev.known = true → dev.led &&& reservedMask p ≠ 0 →
        ledReadValue p dev d = (dev.led &&& fieldMask p) ||| (d &&& reservedMask p)) := by
  refine ⟨fun hk => ?_, fun hk hclean => ?_, fun hk hdirty => ?_⟩
  · rw [ledReadValue, hk, if_neg Bool.false_ne_true]
  · rw [ledReadValue, if_pos hk, if_pos hclean]
  · rw [ledReadValue, if_pos hk, if_neg hdirty]

/-- R29, R55: whatever the draw, a known register shows the field bits it holds. -/
theorem ledReadValue_and_fieldMask {p : Params} {dev : DevState} (hk : dev.known = true) (d : Word) :
    ledReadValue p dev d &&& fieldMask p = dev.led &&& fieldMask p := by
  obtain ⟨-, hclean, hdirty⟩ := ledReadValue_spec p dev d
  by_cases h : dev.led &&& reservedMask p = 0
  · rw [hclean hk h]
  · rw [hdirty hk h, BitVec.and_or_distrib_right, BitVec.and_assoc, BitVec.and_self, BitVec.and_assoc d,
      reservedMask_and_fieldMask, BitVec.and_zero, BitVec.or_zero]

/-! ### A register write -/

/-- R171, R172: the state that a write leaves, by its event and the device after it. -/
def State.afterWrite (s : State) (off w : Nat) (bs : List Byte) (outcome : WriteOutcome) (dev : DevState) : State :=
  { s with
    oracle := (drawWrite s.oracle).2, dev := dev
    log := s.log ++ [.write off w (indexField s.params w) bs outcome] }

/-- R56: the device after a complete write of a value that fits. -/
theorem deviceAfterWrite_complete {w : Nat} {v : Word} (hw : w ∈ Config.widths) (hv : v.toNat < 2 ^ w) (p : Params)
    (dev : DevState) (off : Nat) :
    deviceAfterWrite p dev off (w / 8) (leBytes (w / 8) v) (.ok (w / 8)) =
      if off = p.ledReg ∧ w = 32 then ⟨v, true⟩ else { dev with known := false } := by
  obtain ⟨hbits, -, -⟩ := width_cases hw
  by_cases h : off = p.ledReg ∧ w = 32
  · obtain ⟨rfl, rfl⟩ := h
    rw [if_pos ⟨rfl, rfl⟩, deviceAfterWrite_ledReg, leValue_leBytes hv]
  · rw [if_neg h]
    exact deviceAfterWrite_of_not_complete fun ⟨hoff, hfour, _⟩ => h ⟨hoff, by omega⟩

/-- R170: a failed write raises its failure's error; R56: the LED register is unknown after it. -/
theorem writeBytes_of_err {off w : Nat} {bs : List Byte} {s : State} {f : TransportFault} (hw : w ∈ Config.widths)
    (h : (drawWrite s.oracle).1 = .err f) :
    writeBytes off w bs s =
      (.err (faultError f), s.afterWrite off w bs (.err f) { s.dev with known := false }) := by
  obtain ⟨hbits, -, -⟩ := width_cases hw
  rcases memWrite_cases off (w / 8) bs s with ⟨f', h', hmem⟩ | ⟨k, h', -⟩ <;> cases h.symm.trans h'
  rw [writeBytes, hmem, hbits]
  rfl

/-- R170, LOG 16: a write that transfers k bytes, or all it has where k is more, ends Ok only if those are all. -/
theorem writeBytes_of_ok {off w k : Nat} {bs : List Byte} {s : State} (hw : w ∈ Config.widths)
    (h : (drawWrite s.oracle).1 = .ok k) :
    writeBytes off w bs s = (if min k (w / 8) = w / 8 then .ok () else .err .transportError,
      s.afterWrite off w bs (.ok (min k (w / 8)))
        (deviceAfterWrite s.params s.dev off (w / 8) bs (.ok (min k (w / 8))))) := by
  obtain ⟨hbits, -, -⟩ := width_cases hw
  rcases memWrite_cases off (w / 8) bs s with ⟨f, h', -⟩ | ⟨k', h', hmem⟩ <;> cases h.symm.trans h'
  rw [writeBytes, hmem, hbits]
  rfl

/-- D23: a short write is a transport error; R56: the LED register is unknown after it. -/
theorem writeBytes_of_short {off w k : Nat} {bs : List Byte} {s : State} (hw : w ∈ Config.widths)
    (h : (drawWrite s.oracle).1 = .ok k) (hk : k < w / 8) :
    writeBytes off w bs s =
      (.err .transportError, s.afterWrite off w bs (.ok k) { s.dev with known := false }) := by
  have hpartial : ¬ (off = s.params.ledReg ∧ w / 8 = 4 ∧ WriteOutcome.ok k = .ok 4) := by
    rintro ⟨-, hfour, hk4⟩
    cases hk4
    omega
  rw [writeBytes_of_ok hw h, Nat.min_eq_left (Nat.le_of_lt hk), if_neg (Nat.ne_of_lt hk),
    deviceAfterWrite_of_not_complete hpartial]

/-- R185, R195: a complete write of a value that fits ends Ok, and the device follows it (R56). -/
theorem writeBytes_of_complete {off w k : Nat} {v : Word} {s : State} (hw : w ∈ Config.widths)
    (hv : v.toNat < 2 ^ w) (h : (drawWrite s.oracle).1 = .ok k) (hk : w / 8 ≤ k) :
    writeBytes off w (leBytes (w / 8) v) s = (.ok (), s.afterWrite off w (leBytes (w / 8) v) (.ok (w / 8))
      (if off = s.params.ledReg ∧ w = 32 then ⟨v, true⟩ else { s.dev with known := false })) := by
  rw [writeBytes_of_ok hw h, Nat.min_eq_right hk, if_pos rfl, deviceAfterWrite_complete hw hv]

/-! ### The checks of a raw access (R205) -/

/-- R190, R195: the width is checked first. -/
theorem checkAccess_of_unsupported {p : Params} {off w : Nat} (hw : w ∉ Config.widths) :
    checkAccess p off w = .err .unsupportedWidth :=
  if_neg hw

/-- R50: then the offset's range. -/
theorem checkAccess_of_outOfRange {p : Params} {off w : Nat} (hw : w ∈ Config.widths) (hoff : 2 ^ p.offsetBits ≤ off) :
    checkAccess p off w = .refused .offsetRange := by
  rw [checkAccess, if_pos hw, if_pos hoff]

/-- R53: then its alignment. -/
theorem checkAccess_of_misaligned {p : Params} {off w : Nat} (hw : w ∈ Config.widths) (hoff : off < 2 ^ p.offsetBits)
    (halign : off % (w / 8) ≠ 0) : checkAccess p off w = .refused .misaligned := by
  rw [checkAccess, if_pos hw, if_neg (Nat.not_le.mpr hoff), if_pos halign]

/-- R205: the accesses that are admitted. -/
theorem checkAccess_eq_ok_iff {p : Params} {off w : Nat} :
    checkAccess p off w = .ok () ↔ w ∈ Config.widths ∧ off < 2 ^ p.offsetBits ∧ off % (w / 8) = 0 := by
  constructor
  · intro h
    rcases checkAccess_cases p off w with ⟨-, h'⟩ | ⟨-, -, h'⟩ | ⟨-, -, -, h'⟩ | ⟨hw, hoff, halign, -⟩
    · cases h.symm.trans h'
    · cases h.symm.trans h'
    · cases h.symm.trans h'
    · exact ⟨hw, hoff, halign⟩
  · rintro ⟨hw, hoff, halign⟩
    rw [checkAccess, if_pos hw, if_neg (Nat.not_le.mpr hoff), if_neg (not_not.mpr halign)]

end Sys2Proof.Machine
end

section
/-! Proofs of the session's statements: each operation is brought to its one transfer, or to its end before it, and then
read off the transfer's answer (R171 to R205). -/

namespace Sys2Proof.Machine

/-! ### Operations that end before their transfer -/

/-- R205: an error of the checks ends both raw operations in the state they began in. -/
theorem exec_raw_of_check_err {off w : Nat} {a : Arg Word} {v : Word} {s : State} {e : Error} (ha : DenotesU32 a s v)
    (h : checkAccess s.params off w = .err e) :
    exec (.dsReadRaw (.lit off) (.lit w)) s = .next (s.raiseError e) ∧
      exec (.dsWriteRaw (.lit off) (.lit w) a) s = .next (s.raiseError e) := by
  rw [exec_dsReadRaw, exec_dsWriteRaw ha, dsReadRaw, dsWriteRaw, h]
  exact ⟨rfl, rfl⟩

/-- R205: a refusal of the checks ends both raw operations in the state they began in. -/
theorem exec_raw_of_check_refused {off w : Nat} {a : Arg Word} {v : Word} {s : State} {q : Reason}
    (ha : DenotesU32 a s v) (h : checkAccess s.params off w = .refused q) :
    exec (.dsReadRaw (.lit off) (.lit w)) s = .next (s.refuse q) ∧
      exec (.dsWriteRaw (.lit off) (.lit w) a) s = .next (s.refuse q) := by
  rw [exec_dsReadRaw, exec_dsWriteRaw ha, dsReadRaw, dsWriteRaw, h]
  exact ⟨rfl, rfl⟩

/-- R195, R205: of an admitted write, a value too wide is refused. -/
theorem exec_dsWriteRaw_of_tooWide {off w : Nat} {a : Arg Word} {v : Word} {s : State} (ha : DenotesU32 a s v)
    (h : checkAccess s.params off w = .ok ()) (hv : 2 ^ w ≤ v.toNat) :
    exec (.dsWriteRaw (.lit off) (.lit w) a) s = .next (s.refuse .valueTooWide) := by
  obtain ⟨hw, -, -⟩ := checkAccess_eq_ok_iff.mp h
  rw [exec_dsWriteRaw ha, dsWriteRaw, h, Result.bind_ok, pack, if_pos hw, if_pos hv]
  rfl

/-- Settles O27: each check in turn, the ones before it passed. -/
theorem rawAccessChecksComeFirst : Obligations.RawAccessChecksComeFirst := by
  intro off w a v s ha
  refine ⟨fun hw => ?_, fun hw hoff => ?_, fun hw hoff halign => ?_, fun hw hoff halign hv => ?_⟩
  · exact exec_raw_of_check_err ha (checkAccess_of_unsupported hw)
  · exact exec_raw_of_check_refused ha (checkAccess_of_outOfRange hw hoff)
  · exact exec_raw_of_check_refused ha (checkAccess_of_misaligned hw hoff halign)
  · exact exec_dsWriteRaw_of_tooWide ha (checkAccess_eq_ok_iff.mpr ⟨hw, hoff, halign⟩) hv

/-- Settles O26: the encoding's error ends the operation in the state it began in. -/
theorem dsWriteRejectsBeforeTransfer : Obligations.DsWriteRejectsBeforeTransfer := by
  intro a c s ha hun
  rw [← asks2500m_iff, ← bdInv_none] at hun
  rw [exec_dsWrite ha, dsWrite, encodeConfig_of_unsupported hun]
  rfl

/-! ### Operations as their transfer -/

/-- R180: DS_READ decodes what a 32-bit read at `LED_REG` gives. -/
theorem exec_dsRead (s : State) :
    exec .dsRead s = .next ((readRegister s.params.ledReg 32 s).2.conclude
      ((readRegister s.params.ledReg 32 s).1.map fun v => .config (decodeConfig s.params v))) := rfl

/-- R190: an admitted raw read is the register read. -/
theorem exec_dsReadRaw_of_admitted {off w : Nat} {s : State} (h : checkAccess s.params off w = .ok ()) :
    exec (.dsReadRaw (.lit off) (.lit w)) s =
      .next ((readRegister off w s).2.conclude ((readRegister off w s).1.map .u32)) := by
  rw [exec_dsReadRaw, dsReadRaw, h]
  rfl

/-- R185: DS_WRITE of an encoded configuration is the 32-bit write of its word at `LED_REG`. -/
theorem dsWrite_of_encoded {c : LedConfiguration} {s : State} {raw : Word} (h : encodeConfig s.params c = .ok raw) :
    dsWrite c s = writeBytes s.params.ledReg 32 (leBytes 4 raw) s := by
  rw [dsWrite, h, Result.bind_ok, pack_32, Result.thenIn_ok]

/-- R195: an admitted raw write of a value that fits is the write of its bytes. -/
theorem dsWriteRaw_of_admitted {off w : Nat} {v : Word} {s : State} (h : checkAccess s.params off w = .ok ())
    (hv : v.toNat < 2 ^ w) : dsWriteRaw off w v s = writeBytes off w (leBytes (w / 8) v) s := by
  obtain ⟨hw, -, -⟩ := checkAccess_eq_ok_iff.mp h
  rw [dsWriteRaw, h, Result.bind_ok, pack, if_pos hw, if_neg (Nat.not_le.mpr hv), Result.thenIn_ok]

/-! ### Every answer of the transport -/

/-- R180, R185: the width of DS_READ and DS_WRITE is a supported one. -/
theorem width32 : 32 ∈ Config.widths := by decide

/-- Settles O24: the three answers of a 32-bit read at `LED_REG`, whose value is R55's. -/
theorem dsReadOutcomes : Obligations.DsReadOutcomes := by
  intro s
  rw [exec_dsRead]
  refine ⟨fun f h => ?_, fun k d h hk => ?_, fun k d h hk => ?_⟩
  · rw [readRegister_of_err width32 h]
    rfl
  · refine ⟨_, length_readBytes s.params s.dev s.params.ledReg 4 k d, ?_⟩
    rw [readRegister_of_short width32 h hk]
    rfl
  · obtain ⟨hunknown, hclean, hdirty⟩ := ledReadValue_spec s.params s.dev d
    refine ⟨_, hunknown, hclean, hdirty, ?_⟩
    rw [readRegister_of_complete width32 h hk, readValue_ledReg]
    rfl

/-- Settles O28: the three answers of a register read; the value of a complete one is R55's at `LED_REG` and the draw's
elsewhere. -/
theorem dsReadRawOutcomes : Obligations.DsReadRawOutcomes := by
  intro off w s hw hoff halign
  rw [exec_dsReadRaw_of_admitted (checkAccess_eq_ok_iff.mpr ⟨hw, hoff, halign⟩)]
  refine ⟨fun f h => ?_, fun k d h hk => ?_, fun k d h hk => ?_⟩
  · rw [readRegister_of_err hw h]
    rfl
  · refine ⟨_, length_readBytes s.params s.dev off (w / 8) k d, ?_⟩
    rw [readRegister_of_short hw h hk]
    rfl
  · obtain ⟨hunknown, hclean, hdirty⟩ := ledReadValue_spec s.params s.dev d
    have hled (hoff : off = s.params.ledReg) (hw32 : w = 32) :
        readValue s.params s.dev off w d = ledReadValue s.params s.dev d := by
      rw [hoff, hw32, readValue_ledReg]
    refine ⟨_, readValue s.params s.dev off w d, length_leBytes _ _, fun j hj => getElem?_leBytes _ hj,
      toNat_readValue_lt hw .., fun helse => toNat_readValue_of_not_ledReg hw helse d,
      fun ho h32 hk => (hled ho h32).trans (hunknown hk), fun ho h32 hk h0 => (hled ho h32).trans (hclean hk h0),
      fun ho h32 hk h0 => (hled ho h32).trans (hdirty hk h0), ?_⟩
    rw [readRegister_of_complete hw h hk]
    rfl

/-- Settles O25: an encodable configuration has a word, and the write of that word has its three answers. -/
theorem dsWriteOutcomes : Obligations.DsWriteOutcomes := by
  intro a c s ha ⟨pattern, hlt, he⟩ hlinks
  have hsup : ¬ (bdInv s.params (c.blinkInterval, c.dutyPermille) = none ∨
      s.params.has2500m = false ∧ asks2500m c = true) := by
    rw [bdInv_none, asks2500m_iff]
    rintro (hnone | ⟨hhas, i, hask⟩)
    · exact hnone pattern hlt he
    · cases (hlinks hhas i).symm.trans hask
  obtain ⟨raw, henc⟩ := exists_encodeConfig_of_supported hsup
  rw [exec_dsWrite ha, dsWrite_of_encoded henc]
  refine ⟨raw, exec_ledEncode_of_ok ha henc, fun f h => ?_, fun k h hk => ?_, fun k h hk => ?_⟩
  · rw [writeBytes_of_err width32 h]
    rfl
  · rw [writeBytes_of_short width32 h hk]
    rfl
  · rw [writeBytes_of_complete width32 raw.isLt h hk, if_pos ⟨rfl, rfl⟩]
    rfl

/-- Settles O29: the write of the value's bytes has its three answers. -/
theorem dsWriteRawOutcomes : Obligations.DsWriteRawOutcomes := by
  intro off w a v s ha hw hoff halign hv
  rw [exec_dsWriteRaw ha, dsWriteRaw_of_admitted (checkAccess_eq_ok_iff.mpr ⟨hw, hoff, halign⟩) hv]
  refine ⟨leBytes (w / 8) v, length_leBytes _ v, fun j hj => getElem?_leBytes v hj, fun f h => ?_, fun k h hk => ?_,
    fun k h hk => ?_⟩
  · rw [writeBytes_of_err hw h]
    rfl
  · rw [writeBytes_of_short hw h hk]
    rfl
  · rw [writeBytes_of_complete hw hv h hk]
    rfl

/-! ### A read after a write -/

/-- R185, R56: after a DS_WRITE that ended Ok the LED register is known to hold the word that LED_ENCODE gives. -/
theorem exec_dsWrite_dev {s t : State} {c : LedConfiguration} (hexec : exec (.dsWrite (.lit c)) s = .next t)
    (hstatus : t.status = .running) : ∃ raw, encodeConfig s.params c = .ok raw ∧ t.dev = ⟨raw, true⟩ := by
  rw [exec_dsWrite (.inl rfl)] at hexec
  cases hexec
  obtain ⟨_, hmap⟩ := State.ok_of_conclude_running hstatus
  obtain ⟨_, hok⟩ := Result.ok_of_map_ok hmap
  rcases encodeConfig_cases s.params c with ⟨-, herr⟩ | ⟨pattern, -, -, henc⟩
  · rw [dsWrite, herr] at hok
    cases hok
  · have hwrite := dsWrite_of_encoded henc
    refine ⟨_, henc, ?_⟩
    rw [hwrite] at hok
    rw [State.conclude_dev, hwrite, writeBytes_dev_of_ok hok, deviceAfterWrite_ledReg,
      leValue_leBytes (encodeWord s.params c pattern).isLt]

/-- Settles O30: the register holds the encoded word, which has no reserved bit, so a clean read gives that word and its
decode is the configuration. -/
theorem readAfterWriteGivesConfiguration : Obligations.ReadAfterWriteGivesConfiguration := by
  intro s t u c k d h _ hexec ht hparams hdev hdraw hk
  obtain ⟨raw, henc, htdev⟩ := exec_dsWrite_dev hexec ht
  have hraw := encoded_of_encodeConfig h henc
  have hudev := hdev.trans htdev
  obtain ⟨-, -, hcomplete⟩ := dsReadOutcomes u
  obtain ⟨v, -, hclean, -, hread⟩ := hcomplete k d hdraw hk
  rw [hudev, hparams] at hclean
  obtain rfl := hclean rfl hraw.reserved
  refine ⟨_, hread, ?_, rfl, rfl⟩
  rw [hparams, hraw.decodeConfig_eq]

/-- R195, R205: a raw write that left the run Running was admitted. -/
theorem checkAccess_of_dsWriteRaw_running {off w : Nat} {x : Word} {s t : State}
    (hexec : exec (.dsWriteRaw (.lit off) (.lit w) (.lit x)) s = .next t) (hstatus : t.status = .running) :
    checkAccess s.params off w = .ok () := by
  cases h : checkAccess s.params off w with
  | ok _ => rfl
  | err e =>
    obtain ⟨-, hstop⟩ := exec_raw_of_check_err (v := x) (.inl rfl) h
    cases hexec.symm.trans hstop
    cases hstatus
  | refused q =>
    obtain ⟨-, hstop⟩ := exec_raw_of_check_refused (v := x) (.inl rfl) h
    cases hexec.symm.trans hstop
    cases hstatus

/-- Settles O31: the write was admitted, so the read is, and the register it reads holds the value written. -/
theorem rawReadAfterRawWriteKeepsFieldBits : Obligations.RawReadAfterRawWriteKeepsFieldBits := by
  intro s t u x k d _ _ hexec ht hparams hdev hdraw hk
  have hudev : u.dev = ⟨x, true⟩ := hdev.trans (exec_dsWriteRaw_ledReg_dev hexec ht)
  have hadmitted := checkAccess_of_dsWriteRaw_running hexec ht
  rw [← hparams] at hadmitted ⊢
  refine ⟨_, ledReadValue u.params u.dev d, exec_dsReadRaw_of_admitted hadmitted, ?_, ?_, ?_⟩
  · rw [readRegister_of_complete width32 hdraw hk, readValue_ledReg]
    rfl
  · rw [ledReadValue_and_fieldMask (by rw [hudev]), hudev]
  · obtain ⟨-, hclean, -⟩ := ledReadValue_spec u.params u.dev d
    rw [hudev] at hclean ⊢
    exact hclean rfl

/-! ### The register index field -/

/-- R174: where bits 7:0 of `PLA_BASE` are 0, the low byte of the index field is the mask's, twice. -/
theorem indexField_mod {p : Params} (h : p.plaBase % 256 = 0) (w : Nat) :
    indexField p w % 256 = (byteMask p w <<< 4 ||| byteMask p w) % 256 := by
  rw [indexField, Nat.or_assoc, Nat.or_mod_two_pow (n := 8), h, Nat.zero_or]

/-- Settles O32: the three widths' masks, and with each the low byte. -/
theorem indexFieldFormula : Obligations.IndexFieldFormula := by
  refine ⟨⟨rfl, rfl, rfl⟩, fun p h32 h16 h8 => ?_⟩
  have m32 : byteMask p 32 = 0xF := h32
  have m16 : byteMask p 16 = 0x3 := h16
  have m8 : byteMask p 8 = 0x1 := h8
  refine ⟨by rw [indexField, m32], by rw [indexField, m16], by rw [indexField, m8], fun hbase => ?_⟩
  rw [indexField_mod hbase, indexField_mod hbase, indexField_mod hbase, m32, m16, m8]
  decide

end Sys2Proof.Machine
end

section
/-! Proofs of the exception statements: the errors and refusals an operation ends in (R200, R203, R208), and what an
outside event does at a step boundary (R207, R209, R220, R231). -/

namespace Sys2Proof.Machine

/-! ### Errors and refusals -/

/-- R23, R208: an operation of a Running run ends in an error only by raising it. -/
theorem State.err_of_conclude_status {s : State} {r : Result Value} {e : Error} (hstatus : s.status = .running)
    (h : (s.conclude r).status = .error e) : r = .err e := by
  cases r with
  | ok v => cases hstatus.symm.trans h
  | err e' => cases h; rfl
  | refused q => cases h

/-- Settles O41: a transfer leaves the status Running, so the status after an operation tells the result it concluded
with, and that result is one of its rows'. -/
theorem errorsAndRefusalsByTable : Obligations.ErrorsAndRefusalsByTable := by
  refine ⟨fun i s t hrunning hexec => ?_, rfl⟩
  obtain ⟨u, r, hconclude, htransfer, hraise, hrefuse, -⟩ := exec_inversion i s
  obtain rfl : u.conclude r = t := by rw [hexec] at hconclude; cases hconclude; rfl
  obtain ⟨-, -, -, -, -, hstatus, -, -, -⟩ := htransfer.frame
  have hurunning : u.status = .running := hstatus.trans hrunning
  refine ⟨fun e he => hraise e (State.err_of_conclude_status hurunning he), fun q hq => ?_⟩
  obtain ⟨hmem, -⟩ := hrefuse q (State.refused_of_conclude_status hurunning hq)
  exact hmem

/-! ### Outside events, by the input that is due -/

/-- R220: a power cycle makes the LED register unknown; the run goes on. -/
theorem step_of_powerCycle {s : State} {rest : List Input} (h : s.inputs = .powerCycle :: rest) :
    step s = .next { s with inputs := rest, dev := { s.dev with known := false } } := by
  rw [step, machineStep, h]
  rfl

/-- R209, R231: an invocation starts its program. -/
theorem step_of_invoke {s : State} {selector : Selector} {prog : List Descriptor} {rest : List Input}
    (h : s.inputs = .invoke selector prog :: rest) :
    step s = .next ({ s with inputs := rest }.startProgram selector prog) := by
  rw [step, machineStep, h]

/-- R207: a termination cuts the run off. -/
theorem step_of_terminate {s : State} {rest : List Input} (h : s.inputs = .terminate :: rest) :
    step s = .next { s with inputs := rest }.cutRun := by
  rw [step, machineStep, h]

/-- R23: at a quiet boundary the harness takes its step. -/
theorem step_of_quiet {s : State} {rest : List Input} (h : s.inputs = .quiet :: rest) :
    step s = harnessStep { s with inputs := rest } := by
  rw [step, machineStep, h]

/-- Settles O47: one clause for each input that can be due, and one where none is. -/
theorem outsideEventsAtBoundaries : Obligations.OutsideEventsAtBoundaries := by
  intro s rest
  exact ⟨step_of_powerCycle, fun selector prog h => step_of_invoke h, step_of_terminate, step_of_quiet,
    step_of_inputs_nil⟩

end Sys2Proof.Machine
end

section
/-! Proofs of the reset and hazard statements: the state after power-on (R231, R232), and the bound on the length of a
run without outside events (R23, R246). -/

namespace Sys2Proof.Machine

/-! ### Reset -/

/-- Settles O48: each field is the one reset names. -/
theorem resetState : Obligations.ResetState := ⟨rfl, rfl, rfl, rfl, rfl, rfl⟩

/-! ### What one step of a run does to its length -/

/-- R246: a state in which the run goes on undisturbed: no outside event is due, pc is within the program, and every
descriptor of the program decodes. -/
structure InRun (s : State) : Prop where
  inputs : s.inputs = []
  cutOff : s.cutOff = false
  running : s.status = .running
  pc_le : s.pc ≤ s.prog.length
  decodes : ∀ d ∈ s.prog, ∃ i, decode d = .ok i

/-- R23: from `s` the run has come to its end in `t`, or it goes on there one operation further. -/
def EndsOrAdvances (s t : State) : Prop :=
  t.status ≠ .running ∨ InRun t ∧ t.prog = s.prog ∧ t.pc = s.pc + 1

/-- R23: an operation advances pc when it is Ok, and its error or refusal ends the run. -/
theorem InRun.exec_endsOrAdvances {s : State} (h : InRun s) (hpc : s.pc < s.prog.length) (i : Instr) :
    ∃ t, exec i s = .next t ∧ EndsOrAdvances s t := by
  obtain ⟨u, r, hexec, htransfer, -⟩ := exec_inversion i s
  obtain ⟨-, hprog', -, hpc', -, hstatus', -, hinputs', hcutOff'⟩ := htransfer.frame
  refine ⟨u.conclude r, hexec, ?_⟩
  rcases u.conclude_cases r with ⟨v, -, hend⟩ | ⟨e, -, hend⟩ | ⟨q, -, hend⟩ <;> rw [hend]
  · refine .inr ⟨?_, hprog', congrArg (· + 1) hpc'⟩
    exact {
      inputs := hinputs'.trans h.inputs
      cutOff := hcutOff'.trans h.cutOff
      running := hstatus'.trans h.running
      pc_le := by simpa [hpc', hprog'] using hpc
      decodes := by simpa [hprog'] using h.decodes }
  · exact .inl nofun
  · exact .inl nofun

/-- R23: at the end of the program the run ends Done, and before it the descriptor at pc is executed. -/
theorem InRun.runOperation_endsOrAdvances {s : State} (h : InRun s) :
    ∃ t, runOperation s = .next t ∧ EndsOrAdvances s t := by
  rcases h.pc_le.eq_or_lt with hpc | hpc
  · exact ⟨s.finishRun, runOperation_of_pc_eq_length hpc, .inl nofun⟩
  · obtain ⟨i, hdecode⟩ := h.decodes _ (List.getElem_mem hpc)
    rw [runOperation_of_decode (List.getElem?_eq_getElem hpc) hdecode]
    exact h.exec_endsOrAdvances hpc i

/-- R173: an open that gives a handle leaves the program and the run where they stand, and a failed one ends the run. -/
theorem InRun.openDevice_opens_or_ends {s : State} (h : InRun s) :
    (openDevice s).handle = .opened ∧ InRun (openDevice s) ∧ (openDevice s).prog = s.prog ∧ (openDevice s).pc = s.pc ∨
      (openDevice s).handle = .closed ∧ (openDevice s).status ≠ .running := by
  obtain ⟨o, -, ⟨-, hopen⟩ | ⟨-, hopen⟩ | ⟨-, hopen⟩⟩ := openDevice_cases s <;> rw [hopen]
  · exact .inl ⟨rfl, ⟨h.inputs, h.cutOff, h.running, h.pc_le, h.decodes⟩, rfl, rfl⟩
  · exact .inr ⟨rfl, nofun⟩
  · exact .inr ⟨rfl, nofun⟩

/-- R23: the prologue moves no pc, so with it too the step is one operation at most. -/
theorem InRun.runWithHandle_endsOrAdvances {s : State} (h : InRun s) :
    ∃ t, runWithHandle s = .next t ∧ EndsOrAdvances s t := by
  cases hhandle : s.handle with
  | opened =>
    rw [runWithHandle_of_opened hhandle]
    exact h.runOperation_endsOrAdvances
  | closed =>
    rcases h.openDevice_opens_or_ends with ⟨hopen, hrun, hprog, hpc⟩ | ⟨hopen, hended⟩
    · obtain ⟨t, hnext, hend⟩ := hrun.runOperation_endsOrAdvances
      refine ⟨t, (runWithHandle_of_open_succeeds hhandle hopen).trans hnext, ?_⟩
      rw [EndsOrAdvances, hprog, hpc] at hend
      exact hend
    · exact ⟨openDevice s, runWithHandle_of_open_fails hhandle hopen, .inl hended⟩

/-- R23, R246: a step of an undisturbed run never stops the machine: it ends the run, or advances it by one operation. -/
theorem InRun.step_endsOrAdvances {s : State} (h : InRun s) : ∃ t, step s = .next t ∧ EndsOrAdvances s t := by
  cases hparams : paramsOk s.params with
  | true =>
    rw [step_eq_runWithHandle h.inputs h.cutOff h.running hparams]
    exact h.runWithHandle_endsOrAdvances
  | false =>
    exact ⟨_, badParamsRefused s h.inputs h.cutOff h.running hparams, .inl nofun⟩

/-! ### How long a run is -/

/-- A run of one step more takes that step first. -/
theorem run_succ_of_step {M : Host.Core} {s t : M.State} (h : M.step s = .next t) (n : Nat) :
    M.run (n + 1) s = M.run n t := by
  rw [Host.Core.run, h]

/-- R246: an undisturbed run ends within a step for each operation left and one more, by induction on their number. -/
theorem InRun.ends {s : State} (h : InRun s) :
    ∃ (n : Nat) (t : State), n ≤ s.prog.length - s.pc + 1 ∧ Host.Core.run core n s = .next t ∧ t.status ≠ .running := by
  induction hleft : s.prog.length - s.pc using Nat.strong_induction_on generalizing s with
  | h left ih =>
    obtain ⟨t, hstep, hended | ⟨hrun, hprog, hpc⟩⟩ := h.step_endsOrAdvances
    · exact ⟨1, t, by omega, run_succ_of_step (M := core) hstep 0, hended⟩
    · have hle : s.pc + 1 ≤ s.prog.length := by rw [← hpc, ← hprog]; exact hrun.pc_le
      have hless : t.prog.length - t.pc < left := by rw [hprog, hpc]; omega
      obtain ⟨n, u, hn, hrest, hended⟩ := ih _ hless hrun rfl
      exact ⟨n + 1, u, by omega, (run_succ_of_step (M := core) hstep n).trans hrest, hended⟩

/-- Settles O52: the premises say that the run goes on undisturbed. -/
theorem runsEnd : Obligations.RunsEnd := by
  intro s hinputs hcutOff hrunning hpc hdecodes
  exact InRun.ends ⟨hinputs, hcutOff, hrunning, hpc, hdecodes⟩

end Sys2Proof.Machine
end
